-- ==== Sys2Proof/Word.lean ====
section
/-! DEFINITION. The widths of the block: bytes, 16-bit words, command words. All are unsigned bit vectors
(00_scope.md R8; nothing in the block is signed). -/

namespace Sys2Proof

/-- The width of an 8-bit cell (00_scope.md R7, REG8_WIDTH). -/
abbrev Byte := BitVec 8

/-- The width of a 16-bit cell, of a pair view, of DATA and of RESP (00_scope.md R7). -/
abbrev Word := BitVec 16

/-- The width of a command word (00_scope.md R7, CMD_WIDTH; 30_encoding.md R60). -/
abbrev CmdWord := BitVec 24

end Sys2Proof
end

