-- ==== Sys2Proof/Machine/Cells.lean ====
section
/-! DEFINITION. The ten storage cells, the whole state of one instance (10_state.md R10, R29).
Pair and flag views are computed from them and stored nowhere (R15). -/

namespace Sys2Proof.Machine

/-- The ten cells (10_state.md R10): eight of 8 bits (R11) and two of 16 bits (R12).
F is stored as eight bits; that its low nibble is 0 (R20) is an invariant, proved kept (R27, log 6). -/
@[ext]
structure Cells where
  a : Byte
  f : Byte
  b : Byte
  c : Byte
  d : Byte
  e : Byte
  h : Byte
  l : Byte
  sp : Word
  pc : Word
  deriving DecidableEq, Repr

end Sys2Proof.Machine
end

