-- ==== Sys2Proof/Syntax.lean ====
section
/-! DEFINITION. The command set RF-CMD 1.0 as syntax: the five closed selector enumerations (30_encoding.md R68),
one constructor of `Instr` per row of the opcode table (R62), and the three pseudo-instructions (R77). -/

namespace Sys2Proof

/-- The eight 8-bit cells, in the order of the source (10_state.md R11; 30_encoding.md R63). -/
inductive Reg8 where
  | a | f | b | c | d | e | h | l
  deriving DecidableEq, Repr

/-- The two 16-bit cells (10_state.md R12; 30_encoding.md R64). -/
inductive Reg16 where
  | sp | pc
  deriving DecidableEq, Repr

/-- The four pair views (10_state.md R16; 30_encoding.md R65). -/
inductive Pair where
  | af | bc | de | hl
  deriving DecidableEq, Repr

/-- The four flags: Zero, Subtract, Half-carry, Carry (10_state.md R19; 30_encoding.md R66). -/
inductive Flag where
  | zf | nf | hf | cf
  deriving DecidableEq, Repr

/-- The four hardware variants (30_encoding.md R67; 60_exceptions.md R133). -/
inductive Variant where
  | gb | gbp | gbc | sgb
  deriving DecidableEq, Repr

/-- One command of the block, one constructor per row of the opcode table (30_encoding.md R62).
`setR8` carries the whole 16-bit DATA field: truncation belongs to its meaning, not to decoding (R72). -/
inductive Instr where
  /-- 43_system.md R121 -/
  | nop
  /-- 40_reg_access.md R90 -/
  | getR8 (r : Reg8)
  /-- 40_reg_access.md R91 -/
  | setR8 (r : Reg8) (v : Word)
  /-- 40_reg_access.md R93 -/
  | getR16 (r : Reg16)
  /-- 40_reg_access.md R94 -/
  | setR16 (r : Reg16) (v : Word)
  /-- 41_pair_access.md R100 -/
  | getPair (p : Pair)
  /-- 41_pair_access.md R101 -/
  | setPair (p : Pair) (v : Word)
  /-- 42_flag_access.md R110 -/
  | getFlag (f : Flag)
  /-- 42_flag_access.md R111 -/
  | setFlag (f : Flag) (b : Bool)
  /-- 43_system.md R120 -/
  | powerUp (v : Variant)
  deriving DecidableEq, Repr

/-- Why a command word is reserved (30_encoding.md R70, R71). -/
inductive Reserved where
  /-- OP is 0xA to 0xF. -/
  | opUnassigned
  /-- A bit of SEL above the selector's width is 1 (R70 a). -/
  | selNotZero
  /-- A bit of DATA outside the value operand is 1 (R70 b, c). -/
  | dataNotZero
  deriving DecidableEq, Repr

/-- The pseudo-instructions (30_encoding.md R77): abbreviations with no words of their own.
`restore` takes its ten values in the order A, F, B, C, D, E, H, L, SP, PC. -/
inductive Pseudo where
  /-- `reset v` -/
  | reset (v : Variant)
  /-- `snapshot` (43_system.md R122) -/
  | snapshot
  /-- `restore a, f, b, c, d, e, h, l, sp, pc` (43_system.md R123) -/
  | restore (a f b c d e h l sp pc : Word)
  deriving DecidableEq, Repr

end Sys2Proof
end

