-- ==== Sys2Proof/Machine/PowerUp.lean ====
section
/-! DEFINITION. The default entries of POWER_UP_TABLE (10_state.md R33) and the variant strapped at `State.reset`. -/

namespace Sys2Proof.Machine

/-- POWER_UP_TABLE: the ten cell values of each variant (00_scope.md R7; 92_eei_decisions.md D18). -/
abbrev PowerUpTable := Variant → Cells

/-- The only entry that differs between variants (10_state.md R33). -/
def docPowerUpA : Variant → Byte
  | .gb => 0x01#8
  | .gbp => 0xFF#8
  | .gbc => 0x11#8
  | .sgb => 0x01#8

/-- The table of 10_state.md R33, the default of the configuration field.
UNVERIFIED: the source's literals were audited against no device (93_implementation_defined.md U6, G2; log 4). Unsafe. -/
def docPowerUpTable : PowerUpTable := fun v =>
  { a := docPowerUpA v, f := 0xB0#8, b := 0x00#8, c := 0x13#8, d := 0x00#8, e := 0xD8#8,
    h := 0x01#8, l := 0x4D#8, sp := 0xFFFE#16, pc := 0x0100#16 }

/-- The variant on the strap for `State.reset`.
DESIGN CHOICE: the spec leaves it a parameter of each run (92_eei_decisions.md O1); GB is chosen (log 3). Unsafe. -/
def defaultStrap : Variant := .gb

end Sys2Proof.Machine
end

