-- ==== Sys2Proof/Config.lean ====
section
/-! DEFINITION. What the spec leaves to the configuration of the model: the power-up table and the strapped variant
(92_eei_decisions.md O1, O2, D18). The model has no free value: no command leaves a value undefined (60_exceptions.md R130). -/

namespace Sys2Proof

/-- The two open parameters of the block (92_eei_decisions.md, "Points left OPEN"). -/
structure Config where
  /-- O2, D18: the table, whose default is the table of 10_state.md R33 (log 4). -/
  powerUpTable : Machine.PowerUpTable := Machine.docPowerUpTable
  /-- O1: the variant of the run that starts at `State.reset` (log 3). -/
  strap : Variant := Machine.defaultStrap

/-- The configuration the machine runs with: every field at its default. -/
def Config.current : Config := {}

end Sys2Proof
end

