-- ==== Sys2Proof/WellFormed.lean ====
section
/-! DEFINITION. What must hold of raw inputs: of a command word (30_encoding.md R70, R71) and of a power-up table
(10_state.md R33). A term of `Instr` needs no check: every selector is a closed enumeration that fills its field
(R68), and every value operand has exactly the width of its field (R69), so every term is a legal command. -/

namespace Sys2Proof

/-- The bits that must be zero for each assigned OP, as a mask over the command word (30_encoding.md R70):
SEL above the selector's width, and DATA outside the value operand. `none` for OP 0xA to 0xF (R71). -/
def mustBeZero (op : BitVec 4) : Option CmdWord :=
  match op with
  | 0x0#4 => some 0x0FFFFF#24
  | 0x1#4 => some 0x08FFFF#24
  | 0x2#4 => some 0x080000#24
  | 0x3#4 => some 0x0EFFFF#24
  | 0x4#4 => some 0x0E0000#24
  | 0x5#4 => some 0x0CFFFF#24
  | 0x6#4 => some 0x0C0000#24
  | 0x7#4 => some 0x0CFFFF#24
  | 0x8#4 => some 0x0CFFFE#24
  | 0x9#4 => some 0x0CFFFF#24
  | _ => none

/-- A command word is legal exactly when it is not reserved (30_encoding.md R71): its OP is assigned and every
must-be-zero bit is 0. -/
def legalWord (w : CmdWord) : Bool :=
  match mustBeZero (w.extractLsb' 20 4) with
  | some m => w &&& m == 0#24
  | none => false

/-- The one constraint on a power-up table: F & 0x0F = 0 for every variant (10_state.md R33). -/
def tableLegal (t : Machine.PowerUpTable) : Bool :=
  [Variant.gb, .gbp, .gbc, .sgb].all fun v => (t v).f &&& 0x0F#8 == 0#8

end Sys2Proof
end

