-- ==== Sys2Proof/Decode.lean ====
section
/-! DEFINITION. The command word: its fields (30_encoding.md R61), the selector codes (R63 to R67), the decoder (R72),
total on all 24-bit words and rejecting by name (R71), the encoder (R73), and the match and mask rows (R78). -/

namespace Sys2Proof

/-! ## Fields (R61) -/

/-- OP, bits 23 to 20. -/
def opOf (w : CmdWord) : BitVec 4 := w.extractLsb' 20 4

/-- SEL, bits 19 to 16. -/
def selOf (w : CmdWord) : BitVec 4 := w.extractLsb' 16 4

/-- DATA, bits 15 to 0. -/
def dataOf (w : CmdWord) : Word := w.extractLsb' 0 16

/-- The word {OP, SEL, DATA}. -/
def packWord (op sel : BitVec 4) (data : Word) : CmdWord := op ++ sel ++ data

/-! ## Selector codes (R63 to R67) -/

/-- R63: SEL[2:0] to the 8-bit cell. -/
def cell8 (s : BitVec 3) : Reg8 :=
  match s with
  | 0#3 => .a | 1#3 => .f | 2#3 => .b | 3#3 => .c
  | 4#3 => .d | 5#3 => .e | 6#3 => .h | 7#3 => .l

/-- R64: SEL[0] to the 16-bit cell. -/
def cell16 (s : BitVec 1) : Reg16 :=
  match s with
  | 0#1 => .sp | 1#1 => .pc

/-- R65: SEL[1:0] to the pair. -/
def pairOf (s : BitVec 2) : Pair :=
  match s with
  | 0#2 => .af | 1#2 => .bc | 2#2 => .de | 3#2 => .hl

/-- R66: SEL[1:0] to the flag. -/
def flagOf (s : BitVec 2) : Flag :=
  match s with
  | 0#2 => .zf | 1#2 => .nf | 2#2 => .hf | 3#2 => .cf

/-- R67: the two bits of SEL[1:0], or of the VARIANT strap, to the variant. -/
def variantOf (s : BitVec 2) : Variant :=
  match s with
  | 0#2 => .gb | 1#2 => .gbp | 2#2 => .gbc | 3#2 => .sgb

/-- R63: the code of an 8-bit cell. -/
def Reg8.code : Reg8 → BitVec 3
  | .a => 0#3 | .f => 1#3 | .b => 2#3 | .c => 3#3 | .d => 4#3 | .e => 5#3 | .h => 6#3 | .l => 7#3

/-- R64: the code of a 16-bit cell. -/
def Reg16.code : Reg16 → BitVec 1
  | .sp => 0#1 | .pc => 1#1

/-- R65: the code of a pair. -/
def Pair.code : Pair → BitVec 2
  | .af => 0#2 | .bc => 1#2 | .de => 2#2 | .hl => 3#2

/-- R66: the code of a flag. -/
def Flag.code : Flag → BitVec 2
  | .zf => 0#2 | .nf => 1#2 | .hf => 2#2 | .cf => 3#2

/-- R67: the code of a variant. -/
def Variant.code : Variant → BitVec 2
  | .gb => 0#2 | .gbp => 1#2 | .gbc => 2#2 | .sgb => 3#2

/-! ## Decoding (R72) -/

/-- A command, unless one of its two kinds of must-be-zero bits is 1 (R70). -/
def unlessReserved (selBad dataBad : Bool) (i : Instr) : Except Reserved Instr :=
  if selBad then .error .selNotZero
  else if dataBad then .error .dataNotZero
  else .ok i

/-- Decoding of the three fields (R72): the command, or the reason the word is reserved. -/
def decodeFields (op sel : BitVec 4) (data : Word) : Except Reserved Instr :=
  match op with
  | 0x0#4 => unlessReserved (sel != 0#4) (data != 0#16) .nop
  | 0x1#4 => unlessReserved (sel.extractLsb' 3 1 != 0#1) (data != 0#16) (.getR8 (cell8 (sel.extractLsb' 0 3)))
  | 0x2#4 => unlessReserved (sel.extractLsb' 3 1 != 0#1) false (.setR8 (cell8 (sel.extractLsb' 0 3)) data)
  | 0x3#4 => unlessReserved (sel.extractLsb' 1 3 != 0#3) (data != 0#16) (.getR16 (cell16 (sel.extractLsb' 0 1)))
  | 0x4#4 => unlessReserved (sel.extractLsb' 1 3 != 0#3) false (.setR16 (cell16 (sel.extractLsb' 0 1)) data)
  | 0x5#4 => unlessReserved (sel.extractLsb' 2 2 != 0#2) (data != 0#16) (.getPair (pairOf (sel.extractLsb' 0 2)))
  | 0x6#4 => unlessReserved (sel.extractLsb' 2 2 != 0#2) false (.setPair (pairOf (sel.extractLsb' 0 2)) data)
  | 0x7#4 => unlessReserved (sel.extractLsb' 2 2 != 0#2) (data != 0#16) (.getFlag (flagOf (sel.extractLsb' 0 2)))
  | 0x8#4 => unlessReserved (sel.extractLsb' 2 2 != 0#2) (data.extractLsb' 1 15 != 0#15)
      (.setFlag (flagOf (sel.extractLsb' 0 2)) (data.getLsbD 0))
  | 0x9#4 => unlessReserved (sel.extractLsb' 2 2 != 0#2) (data != 0#16) (.powerUp (variantOf (sel.extractLsb' 0 2)))
  | _ => .error .opUnassigned

/-- The decoder: a total function from 24-bit words (R72). -/
def decode (w : CmdWord) : Except Reserved Instr := decodeFields (opOf w) (selOf w) (dataOf w)

/-! ## Encoding (R73) -/

/-- The operation code (R62). -/
def Instr.op : Instr → BitVec 4
  | .nop => 0x0#4
  | .getR8 _ => 0x1#4
  | .setR8 _ _ => 0x2#4
  | .getR16 _ => 0x3#4
  | .setR16 _ _ => 0x4#4
  | .getPair _ => 0x5#4
  | .setPair _ _ => 0x6#4
  | .getFlag _ => 0x7#4
  | .setFlag _ _ => 0x8#4
  | .powerUp _ => 0x9#4

/-- The selector code, zero-extended to four bits (R73). -/
def Instr.sel : Instr → BitVec 4
  | .nop => 0#4
  | .getR8 r => r.code.setWidth 4
  | .setR8 r _ => r.code.setWidth 4
  | .getR16 r => r.code.setWidth 4
  | .setR16 r _ => r.code.setWidth 4
  | .getPair p => p.code.setWidth 4
  | .setPair p _ => p.code.setWidth 4
  | .getFlag f => f.code.setWidth 4
  | .setFlag f _ => f.code.setWidth 4
  | .powerUp v => v.code.setWidth 4

/-- The DATA field (R73): the value, the zero-extended boolean, or 0x0000. -/
def Instr.data : Instr → Word
  | .setR8 _ v => v
  | .setR16 _ v => v
  | .setPair _ v => v
  | .setFlag _ b => (BitVec.ofBool b).setWidth 16
  | .nop => 0#16
  | .getR8 _ => 0#16
  | .getR16 _ => 0#16
  | .getPair _ => 0#16
  | .getFlag _ => 0#16
  | .powerUp _ => 0#16

/-- The encoder (R73). -/
def encode (i : Instr) : CmdWord := packWord i.op i.sel i.data

/-! ## Match and mask (R78) -/

/-- One row of the opcode map: a word is the row's command exactly when `w & mask = pattern`. -/
structure OpRow where
  pattern : CmdWord
  mask : CmdWord
  deriving DecidableEq, Repr

/-- The ten rows of R78, in the order of OP. -/
def opRows : List OpRow :=
  [⟨0x000000#24, 0xFFFFFF#24⟩, ⟨0x100000#24, 0xF8FFFF#24⟩, ⟨0x200000#24, 0xF80000#24⟩,
   ⟨0x300000#24, 0xFEFFFF#24⟩, ⟨0x400000#24, 0xFE0000#24⟩, ⟨0x500000#24, 0xFCFFFF#24⟩,
   ⟨0x600000#24, 0xFC0000#24⟩, ⟨0x700000#24, 0xFCFFFF#24⟩, ⟨0x800000#24, 0xFCFFFE#24⟩,
   ⟨0x900000#24, 0xFCFFFF#24⟩]

/-- The word is the row's command (R78). -/
def OpRow.accepts (r : OpRow) (w : CmdWord) : Bool := w &&& r.mask == r.pattern

/-- The row of a command (R78). -/
def Instr.row : Instr → OpRow
  | .nop => ⟨0x000000#24, 0xFFFFFF#24⟩
  | .getR8 _ => ⟨0x100000#24, 0xF8FFFF#24⟩
  | .setR8 _ _ => ⟨0x200000#24, 0xF80000#24⟩
  | .getR16 _ => ⟨0x300000#24, 0xFEFFFF#24⟩
  | .setR16 _ _ => ⟨0x400000#24, 0xFE0000#24⟩
  | .getPair _ => ⟨0x500000#24, 0xFCFFFF#24⟩
  | .setPair _ _ => ⟨0x600000#24, 0xFC0000#24⟩
  | .getFlag _ => ⟨0x700000#24, 0xFCFFFF#24⟩
  | .setFlag _ _ => ⟨0x800000#24, 0xFCFFFE#24⟩
  | .powerUp _ => ⟨0x900000#24, 0xFCFFFF#24⟩

/-! ## Words numbered as the opcode table numbers them -/

/-- The command word whose low `nbits` bits are those of `w` and whose other bits are 0. A command is ONE 24-bit word
on a 24-bit port, so there is no byte order to settle (20_memory.md R42, 30_encoding.md R60). -/
def tableWord (nbits w : Nat) : CmdWord := BitVec.ofNat 24 (w % 2 ^ nbits)

/-- The command the decoder reads from a word of the opcode table. -/
def decodeTableWord (nbits w : Nat) : Option Instr := (decode (tableWord nbits w)).toOption

end Sys2Proof
end

