-- ==== Sys2Proof/Machine/State.lean ====
section
/-! DEFINITION. The state of the machine: the ten cells, and the two ends of the ports (30_encoding.md R60) that a
step of the form State → Outcome needs. Reset (70_reset_and_hazards.md R150). -/

namespace Sys2Proof.Machine

/-- The value a command returns, at its own width (30_encoding.md R74). -/
inductive Result where
  /-- `get_r8`: 8 bits. -/
  | byte (v : Byte)
  /-- `get_r16` and `get_pair`: 16 bits. -/
  | word (v : Word)
  /-- `get_flag`: 1 bit. -/
  | bit (b : Bool)
  deriving DecidableEq, Repr

/-- The four input signals at one rising edge of CLK (30_encoding.md R60). -/
structure Edge where
  /-- RESET -/
  reset : Bool
  /-- VARIANT, read only when RESET is 1. -/
  variant : BitVec 2
  /-- CMD_VALID -/
  cmdValid : Bool
  /-- CMD -/
  cmd : CmdWord
  deriving DecidableEq, Repr

/-- The machine. `cells` is the whole state of the block (10_state.md R10, R29). `result` and `port` are the model's
own (logs 1 and 5): what the command of the last step returned, and the edges still to come. -/
structure State where
  cells : Cells
  /-- What the step just taken returned; RESP_VALID and RESP are computed from it (R74). -/
  result : Option Result
  /-- The input signals of the rising edges to come, the next one first. -/
  port : List Edge
  deriving DecidableEq, Repr

/-- No step of this block faults: the table of exception causes is empty (60_exceptions.md R130, R131; log 9).
No constructor, so nobody raises one; safe, because the spec gives every legal command a next state. -/
inductive Fault where
  deriving DecidableEq, Repr

/-- Why the machine has no step. -/
inductive Refusal where
  /-- Raised by an arm of `exec` whose instruction has no meaning yet. No arm raises it: all ten commands have their
  meaning. Safe. -/
  | notModelled (mnemonic : String)
  /-- Raised by `step` when the command word at the port is reserved: the spec defines no behaviour for one and asks
  for a refusal (60_exceptions.md R134; 30_encoding.md R71; log 8). Safe. -/
  | reservedWord (why : Reserved)
  deriving DecidableEq, Repr

/-- The state right after `power_up(v)` with nothing at the port and no result (70_reset_and_hazards.md R150, R151).
A run of the variant `v` starts here (92_eei_decisions.md O1). -/
def State.powerUp (v : Variant) : State :=
  { cells := Config.current.powerUpTable v, result := none, port := [] }

/-- The machine right after reset: `power_up` of the strapped variant (70_reset_and_hazards.md R150). -/
def State.reset : State := State.powerUp Config.current.strap

/-- RESP_VALID (30_encoding.md R74). -/
def State.respValid (s : State) : Bool := s.result.isSome

end Sys2Proof.Machine
end

