-- ==== Sys2Proof/Machine/Flags.lean ====
section
/-! DEFINITION. The flag computations over F (10_state.md R19 to R24): the mask of a flag, its test, its set and clear.
The block attaches no arithmetic meaning to the flags (R23). -/

namespace Sys2Proof.Machine

/-- `flag_mask(f)` (10_state.md R22). -/
def flagMask : Flag → Byte
  | .zf => 0x80#8
  | .nf => 0x40#8
  | .hf => 0x20#8
  | .cf => 0x10#8

/-- The test of one bit, `(F & mask) != 0` (10_state.md R21; 42_flag_access.md R110). -/
def flagTest (x : Byte) (f : Flag) : Bool := x &&& flagMask f != 0#8

/-- F with one flag set or cleared (42_flag_access.md R111). The complement is taken at 8 bits (R113), and there is no
mask of its own (R114). -/
def flagWrite (x : Byte) (f : Flag) (b : Bool) : Byte :=
  if b then x ||| flagMask f else x &&& ~~~(flagMask f)

end Sys2Proof.Machine
end

