-- ==== Sys2Proof/Machine/Operands.lean ====
section
/-! DEFINITION. Operand forms: how a value operand is taken from DATA (30_encoding.md R69), truncation (20_memory.md R56),
the cells of a pair (10_state.md R16), the write masks (40_reg_access.md R92; 41_pair_access.md R102, R103), and
the zero-extension of results (30_encoding.md R74). -/

namespace Sys2Proof.Machine

/-- `v[15:8]`. -/
def highByte (v : Word) : Byte := v.extractLsb' 8 8

/-- `v[7:0]`, which is also `trunc_8(v)` (20_memory.md R56). -/
def lowByte (v : Word) : Byte := v.extractLsb' 0 8

/-- `pair_hi(p)` (10_state.md R16). -/
def pairHi : Pair → Reg8
  | .af => .a
  | .bc => .b
  | .de => .d
  | .hl => .h

/-- `pair_lo(p)` (10_state.md R16). -/
def pairLo : Pair → Reg8
  | .af => .f
  | .bc => .c
  | .de => .e
  | .hl => .l

/-- The mask of a byte write: 0xF0 for F, whose low nibble is unwired (40_reg_access.md R92), 0xFF for the others
(10_state.md R25). The mask of F is the spec's decision D10 (log 7). -/
def byteWriteMask : Reg8 → Byte
  | .f => 0xF0#8
  | .a => 0xFF#8
  | .b => 0xFF#8
  | .c => 0xFF#8
  | .d => 0xFF#8
  | .e => 0xFF#8
  | .h => 0xFF#8
  | .l => 0xFF#8

/-- The low-byte mask of a pair write: 0xF0 for AF (41_pair_access.md R102), 0xFF for BC, DE and HL (R103).
The two must stay different (R105). -/
def pairLowMask : Pair → Byte
  | .af => 0xF0#8
  | .bc => 0xFF#8
  | .de => 0xFF#8
  | .hl => 0xFF#8

/-- RESP: the result zero-extended to 16 bits (30_encoding.md R74). -/
def Result.resp : Result → Word
  | .byte v => v.setWidth 16
  | .word v => v
  | .bit b => (BitVec.ofBool b).setWidth 16

/-- The RESP port: 0x0000 when RESP_VALID is 0 (30_encoding.md R74; 93_implementation_defined.md U10). -/
def State.resp (s : State) : Word :=
  match s.result with
  | some r => r.resp
  | none => 0#16

end Sys2Proof.Machine
end

