-- ==== Sys2Proof/Machine/Ops.lean ====
section
/-! DEFINITION. The operations every meaning is built from: reading and writing cells, the pair and flag views
(10_state.md R15 to R18, R21), power-up (43_system.md R120), the two ways a command ends (30_encoding.md R74), and what
an edge presents at the port (30_encoding.md R60).

There is no operation for taking an exception or returning from one: the block has neither (60_exceptions.md R130,
R137, R138). There is no memory operation: the block has no memory (20_memory.md R40). -/

namespace Sys2Proof.Machine

/-! ## Cells -/

/-- `x[r]` (00_scope.md R8). -/
def Cells.read8 (c : Cells) : Reg8 → Byte
  | .a => c.a
  | .f => c.f
  | .b => c.b
  | .c => c.c
  | .d => c.d
  | .e => c.e
  | .h => c.h
  | .l => c.l

/-- `x[r] <- v`, the RAW cell write of 00_scope.md R8: a rule that writes F applies its mask to `v` first. -/
def Cells.write8 (c : Cells) (r : Reg8) (v : Byte) : Cells :=
  match r with
  | .a => { c with a := v }
  | .f => { c with f := v }
  | .b => { c with b := v }
  | .c => { c with c := v }
  | .d => { c with d := v }
  | .e => { c with e := v }
  | .h => { c with h := v }
  | .l => { c with l := v }

/-- SP or PC read (40_reg_access.md R93). -/
def Cells.read16 (c : Cells) : Reg16 → Word
  | .sp => c.sp
  | .pc => c.pc

/-- SP or PC written, all 16 bits (40_reg_access.md R94). -/
def Cells.write16 (c : Cells) (r : Reg16) (v : Word) : Cells :=
  match r with
  | .sp => { c with sp := v }
  | .pc => { c with pc := v }

/-! ## Views -/

/-- The pair view, high byte first (10_state.md R17). -/
def Cells.pair (c : Cells) (p : Pair) : Word := c.read8 (pairHi p) ++ c.read8 (pairLo p)

/-- The flag view (10_state.md R21). -/
def Cells.flag (c : Cells) (f : Flag) : Bool := flagTest c.f f

/-! ## Writes by command -/

/-- The byte write of `set_r8`: truncated to 8 bits and masked for F (40_reg_access.md R91, R92). -/
def Cells.setByte (c : Cells) (r : Reg8) (v : Word) : Cells := c.write8 r (lowByte v &&& byteWriteMask r)

/-- The pair write of `set_pair`: the high byte whole, the low byte through the pair's mask (41_pair_access.md R101). -/
def Cells.setPair (c : Cells) (p : Pair) (v : Word) : Cells :=
  (c.write8 (pairHi p) (highByte v)).write8 (pairLo p) (lowByte v &&& pairLowMask p)

/-- The flag write of `set_flag`, a read-modify-write of F (42_flag_access.md R111). -/
def Cells.setFlag (c : Cells) (f : Flag) (b : Bool) : Cells := c.write8 .f (flagWrite c.f f b)

/-- The ten cells after `power_up v` (43_system.md R120), for any table (92_eei_decisions.md D18): they depend on no
cell of before. -/
def powerUpCells (t : PowerUpTable) (v : Variant) : Cells := t v

/-! ## How a command ends -/

/-- A command that returns a value and writes no cell (30_encoding.md R74; 20_memory.md R46). -/
def answer (r : Result) (s : State) : Host.Outcome State Fault Refusal := .next { s with result := some r }

/-- A command that returns nothing and leaves the cells `c` (30_encoding.md R74). -/
def finish (c : Cells) (s : State) : Host.Outcome State Fault Refusal := .next { s with cells := c, result := none }

/-! ## The port -/

/-- What one rising edge asks for (30_encoding.md R60). -/
inductive Presented where
  /-- RESET = 0 and CMD_VALID = 0: nothing. -/
  | idle
  /-- RESET = 1: power up as the strapped variant. -/
  | reset (v : Variant)
  /-- CMD_VALID = 1 and RESET = 0: execute this word. -/
  | command (w : CmdWord)
  deriving DecidableEq, Repr

/-- RESET wins over a command at the same edge (60_exceptions.md R136; 70_reset_and_hazards.md R153). -/
def Edge.presented (e : Edge) : Presented :=
  if e.reset then .reset (variantOf e.variant)
  else if e.cmdValid then .command e.cmd
  else .idle

/-- The next edge taken off the port. Past the listed edges the port is idle (DESIGN CHOICE, log 1). -/
def takeEdge (s : State) : Presented × State :=
  match s.port with
  | [] => (.idle, s)
  | e :: rest => (e.presented, { s with port := rest })

/-- An edge that presents a command. -/
def Edge.command (w : CmdWord) : Edge := { reset := false, variant := 0#2, cmdValid := true, cmd := w }

/-- An edge that presents a reset with VARIANT strapped to `v` (70_reset_and_hazards.md R150). -/
def Edge.resetAs (v : Variant) : Edge := { reset := true, variant := v.code, cmdValid := false, cmd := 0#24 }

/-- An edge that presents nothing. -/
def Edge.idle : Edge := { reset := false, variant := 0#2, cmdValid := false, cmd := 0#24 }

/-- The state with these commands at the port, in issue order, before whatever is there already (20_memory.md R50). -/
def State.present (s : State) (is : List Instr) : State :=
  { s with port := is.map (fun i => Edge.command (encode i)) ++ s.port }

end Sys2Proof.Machine
end

