-- ==== Sys2Proof/Machine/FlagAccess.lean ====
section
/-! DEFINITION. The flag commands (42_flag_access.md). -/

namespace Sys2Proof.Machine

/-- `get_flag f` (R110): one bit. -/
def execGetFlag (f : Flag) (s : State) : Host.Outcome State Fault Refusal := answer (.bit (s.cells.flag f)) s

/-- `set_flag f, b` (R111): one bit of F. -/
def execSetFlag (f : Flag) (b : Bool) (s : State) : Host.Outcome State Fault Refusal := finish (s.cells.setFlag f b) s

end Sys2Proof.Machine
end

