-- ==== Sys2Proof/Machine/PairAccess.lean ====
section
/-! DEFINITION. The pair commands (41_pair_access.md). -/

namespace Sys2Proof.Machine

/-- `get_pair p` (R100): high byte first, 16 bits. -/
def execGetPair (p : Pair) (s : State) : Host.Outcome State Fault Refusal := answer (.word (s.cells.pair p)) s

/-- `set_pair p, v` (R101): both cells in one step, the low one through the pair's mask (R102, R103). -/
def execSetPair (p : Pair) (v : Word) (s : State) : Host.Outcome State Fault Refusal := finish (s.cells.setPair p v) s

end Sys2Proof.Machine
end

