-- ==== Sys2Proof/Machine/RegAccess.lean ====
section
/-! DEFINITION. The per-cell access commands (40_reg_access.md). -/

namespace Sys2Proof.Machine

/-- `get_r8 r` (R90): the cell, 8 bits. -/
def execGetR8 (r : Reg8) (s : State) : Host.Outcome State Fault Refusal := answer (.byte (s.cells.read8 r)) s

/-- `set_r8 r, v` (R91): the low byte of `v`, through 0xF0 when `r` is F (R92). -/
def execSetR8 (r : Reg8) (v : Word) (s : State) : Host.Outcome State Fault Refusal := finish (s.cells.setByte r v) s

/-- `get_r16 s` (R93): the cell, 16 bits. Reading PC does not advance it. -/
def execGetR16 (r : Reg16) (s : State) : Host.Outcome State Fault Refusal := answer (.word (s.cells.read16 r)) s

/-- `set_r16 s, v` (R94): all 16 bits; a write to PC transfers no control in the block (43_system.md R124). -/
def execSetR16 (r : Reg16) (v : Word) (s : State) : Host.Outcome State Fault Refusal := finish (s.cells.write16 r v) s

end Sys2Proof.Machine
end

