-- ==== Sys2Proof/Machine/System.lean ====
section
/-! DEFINITION. The system commands (43_system.md). -/

namespace Sys2Proof.Machine

/-- `nop` (R121): no cell changes. -/
def execNop (s : State) : Host.Outcome State Fault Refusal := finish s.cells s

/-- `power_up v` (R120): all ten cells from the configured table. The same step is caused by RESET (70_reset_and_hazards.md R150). -/
def execPowerUp (v : Variant) (s : State) : Host.Outcome State Fault Refusal :=
  finish (powerUpCells Config.current.powerUpTable v) s

end Sys2Proof.Machine
end

