-- ==== Sys2Proof/Machine/Dispatch.lean ====
section
/-! DEFINITION. One arm per command (30_encoding.md R62). -/

namespace Sys2Proof.Machine

def exec (i : Instr) (s : State) : Host.Outcome State Fault Refusal :=
  match i with
  | .nop => Sys2Proof.Machine.execNop s
  | .getR8 r => Sys2Proof.Machine.execGetR8 r s
  | .setR8 r v => Sys2Proof.Machine.execSetR8 r v s
  | .getR16 r => Sys2Proof.Machine.execGetR16 r s
  | .setR16 r v => Sys2Proof.Machine.execSetR16 r v s
  | .getPair p => Sys2Proof.Machine.execGetPair p s
  | .setPair p v => Sys2Proof.Machine.execSetPair p v s
  | .getFlag f => Sys2Proof.Machine.execGetFlag f s
  | .setFlag f b => Sys2Proof.Machine.execSetFlag f b s
  | .powerUp v => Sys2Proof.Machine.execPowerUp v s

end Sys2Proof.Machine
end

