-- ==== Sys2Proof/Machine/Step.lean ====
section
/-! DEFINITION. One step: one rising edge at the port (30_encoding.md R60). -/

namespace Sys2Proof.Machine

/-- One rising edge. A reset edge performs `power_up` of the strapped variant (70_reset_and_hazards.md R150); a command
edge executes the decoded command; a reserved word is refused (60_exceptions.md R134); an idle edge changes no cell
and returns nothing (30_encoding.md R60). -/
def step (s : State) : Host.Outcome State Fault Refusal :=
  match takeEdge s with
  | (.idle, t) => finish t.cells t
  | (.reset v, t) => execPowerUp v t
  | (.command w, t) =>
    match decode w with
    | .ok i => exec i t
    | .error why => .refused (.reservedWord why)

/-- The state in which the word of the opcode table is presented at the next edge, before whatever the port lists.
The block fetches nothing (20_memory.md R53): this is the interpreter issuing a command (log 2). -/
def State.withFetchWord (s : State) (nbits w : Nat) : State :=
  { s with port := Edge.command (tableWord nbits w) :: s.port }

end Sys2Proof.Machine
end

