-- ==== Sys2Proof/Machine/Pseudo.lean ====
section
/-! DEFINITION. Command sequences: the fold of the command rules over a sequence (20_memory.md R50), the results it
returns, and the pseudo-instructions as abbreviations of sequences (30_encoding.md R77; 43_system.md R122, R123). -/

namespace Sys2Proof.Machine

/-- The state after a sequence of commands: the fold of the command rules (20_memory.md R50; 60_exceptions.md R137).
It stops at a command that has no next state. -/
def execSeq : List Instr → State → Host.Outcome State Fault Refusal
  | [], s => .next s
  | i :: is, s =>
    match exec i s with
    | .next t => execSeq is t
    | .fault r => .fault r
    | .refused r => .refused r

/-- The results a sequence of commands returns, one entry per command, in issue order (30_encoding.md R74).
The entries end at a command that has no next state. -/
def resultsOf : List Instr → State → List (Option Result)
  | [], _ => []
  | i :: is, s =>
    match exec i s with
    | .next t => t.result :: resultsOf is t
    | .fault _ => []
    | .refused _ => []

end Sys2Proof.Machine

namespace Sys2Proof

/-- The expansion of a pseudo-instruction (30_encoding.md R77). -/
def Pseudo.expand : Pseudo → List Instr
  | .reset v => [.powerUp v]
  | .snapshot =>
    [.getR8 .a, .getR8 .f, .getR8 .b, .getR8 .c, .getR8 .d, .getR8 .e, .getR8 .h, .getR8 .l, .getR16 .sp, .getR16 .pc]
  | .restore a f b c d e h l sp pc =>
    [.setR8 .a a, .setR8 .f f, .setR8 .b b, .setR8 .c c, .setR8 .d d, .setR8 .e e, .setR8 .h h, .setR8 .l l,
     .setR16 .sp sp, .setR16 .pc pc]

/-- The `restore` that takes the ten results of a `snapshot`, in its order (43_system.md R123); `none` for any other
list of results. -/
def Pseudo.restoreOf : List (Option Machine.Result) → Option Pseudo
  | [some a, some f, some b, some c, some d, some e, some h, some l, some sp, some pc] =>
    some (.restore a.resp f.resp b.resp c.resp d.resp e.resp h.resp l.resp sp.resp pc.resp)
  | _ => none

end Sys2Proof
end

