-- ==== Sys2Proof/Machine/Assembler.lean ====
section
/-! DEFINITION. The textual form of commands (30_encoding.md R76) and of pseudo-instructions (R77): one line of
characters to one command or pseudo-instruction, and a listing of a command. Text is a list of characters.
What R76 leaves open (spacing, the case of hexadecimal digits, lines with no command, which error a line with several faults
gets, and what one bad line does to the whole text) is fixed in log 12. -/

namespace Sys2Proof.Machine

/-- Why a line is not assembled. R76 (30_encoding.md) says only "an assembly error": the kinds, their names, and which of
them a line with several faults gets are the model's (DESIGN CHOICE, log 12). -/
inductive AsmError where
  /-- No command or pseudo-instruction of that name. -/
  | unknownMnemonic
  /-- No cell, pair, flag or variant of that name in this position. -/
  | unknownSelector
  /-- Not a number, or not a boolean, where one is required. -/
  | badValue
  /-- A number that does not fit in 16 bits. -/
  | numberTooLarge
  /-- The line has not the shape of its mnemonic's form. -/
  | badForm
  deriving DecidableEq, Repr

/-- A word of text or a comma. -/
inductive Token where
  | word (cs : List Char)
  | comma
  deriving DecidableEq, Repr

/-- What one line says. -/
inductive AsmItem where
  | command (i : Instr)
  | pseudo (p : Pseudo)
  deriving DecidableEq, Repr

/-- The commands a line stands for (30_encoding.md R77). -/
def AsmItem.commands : AsmItem → List Instr
  | .command i => [i]
  | .pseudo p => p.expand

/-! ## Lexing -/

/-- The line up to its comment: `#` starts one that runs to the end of the line (R76). -/
def stripComment (cs : List Char) : List Char := cs.takeWhile (fun ch => ch != '#')

/-- Adds the pending word, if there is one, in front of the tokens. -/
def flushWord (acc : List Char) (ts : List Token) : List Token :=
  match acc with
  | [] => ts
  | _ :: _ => .word acc.reverse :: ts

/-- Splits a line into words and commas; blanks separate words. `acc` is the word being read, reversed. -/
def tokensFrom : List Char → List Char → List Token
  | acc, [] => flushWord acc []
  | acc, ch :: cs =>
    if ch == ' ' || ch == '\t' then flushWord acc (tokensFrom [] cs)
    else if ch == ',' then flushWord acc (.comma :: tokensFrom [] cs)
    else tokensFrom (ch :: acc) cs

/-- The tokens of a line without its comment. -/
def tokens (line : List Char) : List Token := tokensFrom [] (stripComment line)

/-! ## Names -/

/-- The names of the 8-bit cells (R76). -/
def reg8Name : Reg8 → List Char
  | .a => ['A'] | .f => ['F'] | .b => ['B'] | .c => ['C'] | .d => ['D'] | .e => ['E'] | .h => ['H'] | .l => ['L']

/-- The names of the 16-bit cells (R76). -/
def reg16Name : Reg16 → List Char
  | .sp => ['S', 'P'] | .pc => ['P', 'C']

/-- The names of the pairs (R76). -/
def pairName : Pair → List Char
  | .af => ['A', 'F'] | .bc => ['B', 'C'] | .de => ['D', 'E'] | .hl => ['H', 'L']

/-- The names of the flags (R76). -/
def flagName : Flag → List Char
  | .zf => ['Z', 'F'] | .nf => ['N', 'F'] | .hf => ['H', 'F'] | .cf => ['C', 'F']

/-- The source's names of the flags, accepted in the flag position only (R76, 90_conflicts.md C3). -/
def flagSynonym : Flag → List Char
  | .zf => ['Z'] | .nf => ['N'] | .hf => ['H'] | .cf => ['C']

/-- The names of the variants (R76). -/
def variantName : Variant → List Char
  | .gb => ['G', 'B'] | .gbp => ['G', 'B', 'P'] | .gbc => ['G', 'B', 'C'] | .sgb => ['S', 'G', 'B']

/-- The first of the candidates whose name is the word. -/
def lookupName {α : Type} (name : α → List Char) (cs : List Char) : List α → Except AsmError α
  | [] => .error .unknownSelector
  | x :: xs => if name x = cs then .ok x else lookupName name cs xs

/-- An 8-bit cell by name. -/
def parseReg8 (cs : List Char) : Except AsmError Reg8 := lookupName reg8Name cs [.a, .f, .b, .c, .d, .e, .h, .l]

/-- A 16-bit cell by name. -/
def parseReg16 (cs : List Char) : Except AsmError Reg16 := lookupName reg16Name cs [.sp, .pc]

/-- A pair by name. -/
def parsePair (cs : List Char) : Except AsmError Pair := lookupName pairName cs [.af, .bc, .de, .hl]

/-- A flag by name or by its synonym. -/
def parseFlag (cs : List Char) : Except AsmError Flag :=
  match lookupName flagName cs [.zf, .nf, .hf, .cf] with
  | .ok f => .ok f
  | .error _ => lookupName flagSynonym cs [.zf, .nf, .hf, .cf]

/-- A variant by name. -/
def parseVariant (cs : List Char) : Except AsmError Variant := lookupName variantName cs [.gb, .gbp, .gbc, .sgb]

/-! ## Values -/

/-- The value of a digit: decimal, or a hexadecimal digit of either case (log 12). -/
def digitValue (ch : Char) : Option Nat :=
  let n := ch.toNat
  if 48 ≤ n ∧ n ≤ 57 then some (n - 48)
  else if 65 ≤ n ∧ n ≤ 70 then some (n - 55)
  else if 97 ≤ n ∧ n ≤ 102 then some (n - 87)
  else none

/-- The number a non-empty list of digits of this base denotes, read on from `acc`. -/
def digitsValue (base : Nat) (acc : Nat) : List Char → Option Nat
  | [] => some acc
  | ch :: cs =>
    match digitValue ch with
    | some d => if d < base then digitsValue base (acc * base + d) cs else none
    | none => none

/-- A number: decimal, or `0x` hexadecimal (R76). -/
def numberValue : List Char → Option Nat
  | [] => none
  | '0' :: 'x' :: [] => none
  | '0' :: 'x' :: ch :: cs => digitsValue 16 0 (ch :: cs)
  | ch :: cs => digitsValue 10 0 (ch :: cs)

/-- A number operand: one that does not fit in 16 bits is an assembly error (R76). -/
def parseNumber (cs : List Char) : Except AsmError Word :=
  match numberValue cs with
  | some n => if n < 65536 then .ok (BitVec.ofNat 16 n) else .error .numberTooLarge
  | none => .error .badValue

/-- The word `true`. -/
def trueName : List Char := ['t', 'r', 'u', 'e']

/-- The word `false`. -/
def falseName : List Char := ['f', 'a', 'l', 's', 'e']

/-- A boolean operand: `true`, `false`, `1` or `0` (R76). -/
def parseBool (cs : List Char) : Except AsmError Bool :=
  if cs = trueName ∨ cs = ['1'] then .ok true
  else if cs = falseName ∨ cs = ['0'] then .ok false
  else .error .badValue

/-! ## Forms -/

/-- The mnemonics of commands and pseudo-instructions (R76, R77). -/
inductive Mnemonic where
  | nop | getR8 | setR8 | getR16 | setR16 | getPair | setPair | getFlag | setFlag | powerUp | reset | snapshot | restore
  deriving DecidableEq, Repr

/-- The spelling of a mnemonic; mnemonics are case-sensitive (R76). -/
def mnemonicName : Mnemonic → List Char
  | .nop => ['n', 'o', 'p']
  | .getR8 => ['g', 'e', 't', '_', 'r', '8']
  | .setR8 => ['s', 'e', 't', '_', 'r', '8']
  | .getR16 => ['g', 'e', 't', '_', 'r', '1', '6']
  | .setR16 => ['s', 'e', 't', '_', 'r', '1', '6']
  | .getPair => ['g', 'e', 't', '_', 'p', 'a', 'i', 'r']
  | .setPair => ['s', 'e', 't', '_', 'p', 'a', 'i', 'r']
  | .getFlag => ['g', 'e', 't', '_', 'f', 'l', 'a', 'g']
  | .setFlag => ['s', 'e', 't', '_', 'f', 'l', 'a', 'g']
  | .powerUp => ['p', 'o', 'w', 'e', 'r', '_', 'u', 'p']
  | .reset => ['r', 'e', 's', 'e', 't']
  | .snapshot => ['s', 'n', 'a', 'p', 's', 'h', 'o', 't']
  | .restore => ['r', 'e', 's', 't', 'o', 'r', 'e']

/-- A mnemonic by its spelling. -/
def parseMnemonic (cs : List Char) : Except AsmError Mnemonic :=
  match lookupName mnemonicName cs [.nop, .getR8, .setR8, .getR16, .setR16, .getPair, .setPair, .getFlag, .setFlag,
      .powerUp, .reset, .snapshot, .restore] with
  | .ok m => .ok m
  | .error _ => .error .unknownMnemonic

/-- A form with no operand. -/
def form0 (x : AsmItem) : List Token → Except AsmError AsmItem
  | [] => .ok x
  | _ => .error .badForm

/-- A form with a selector. The shape is checked before the selector (DESIGN CHOICE, log 12). -/
def form1 {α : Type} (sel : List Char → Except AsmError α) (mk : α → AsmItem) : List Token → Except AsmError AsmItem
  | [.word x] =>
    match sel x with
    | .ok a => .ok (mk a)
    | .error e => .error e
  | _ => .error .badForm

/-- A form with a selector, a comma and a value. The shape is checked first, then the selector, then the value: a line with
a bad selector and a bad value gets the selector's error (DESIGN CHOICE, log 12). -/
def form2 {α β : Type} (sel : List Char → Except AsmError α) (val : List Char → Except AsmError β) (mk : α → β → AsmItem) :
    List Token → Except AsmError AsmItem
  | [.word x, .comma, .word y] =>
    match sel x, val y with
    | .ok a, .ok b => .ok (mk a b)
    | .error e, _ => .error e
    | .ok _, .error e => .error e
  | _ => .error .badForm

/-- A list of numbers separated by commas, read from the left: the first number or place that is wrong gives the error
(DESIGN CHOICE, log 12). -/
def numberList : List Token → Except AsmError (List Word)
  | [.word x] =>
    match parseNumber x with
    | .ok v => .ok [v]
    | .error e => .error e
  | .word x :: .comma :: ts =>
    match parseNumber x, numberList ts with
    | .ok v, .ok vs => .ok (v :: vs)
    | .error e, _ => .error e
    | .ok _, .error e => .error e
  | _ => .error .badForm

/-- The form of `restore`: ten numbers (R77). That there are ten is checked after the numbers (DESIGN CHOICE, log 12). -/
def formRestore (ts : List Token) : Except AsmError AsmItem :=
  match numberList ts with
  | .ok [a, f, b, c, d, e, h, l, sp, pc] => .ok (.pseudo (.restore a f b c d e h l sp pc))
  | .ok _ => .error .badForm
  | .error e => .error e

/-- The operands of a mnemonic (R76, R77). -/
def parseOperands (m : Mnemonic) (ts : List Token) : Except AsmError AsmItem :=
  match m with
  | .nop => form0 (.command .nop) ts
  | .getR8 => form1 parseReg8 (fun r => .command (.getR8 r)) ts
  | .setR8 => form2 parseReg8 parseNumber (fun r v => .command (.setR8 r v)) ts
  | .getR16 => form1 parseReg16 (fun r => .command (.getR16 r)) ts
  | .setR16 => form2 parseReg16 parseNumber (fun r v => .command (.setR16 r v)) ts
  | .getPair => form1 parsePair (fun p => .command (.getPair p)) ts
  | .setPair => form2 parsePair parseNumber (fun p v => .command (.setPair p v)) ts
  | .getFlag => form1 parseFlag (fun f => .command (.getFlag f)) ts
  | .setFlag => form2 parseFlag parseBool (fun f b => .command (.setFlag f b)) ts
  | .powerUp => form1 parseVariant (fun v => .command (.powerUp v)) ts
  | .reset => form1 parseVariant (fun v => .pseudo (.reset v)) ts
  | .snapshot => form0 (.pseudo .snapshot) ts
  | .restore => formRestore ts

/-- One line: nothing, or one command or pseudo-instruction (R76). The mnemonic is checked before its operands (DESIGN
CHOICE, log 12). -/
def parseLine (line : List Char) : Except AsmError (Option AsmItem) :=
  match tokens line with
  | [] => .ok none
  | .word m :: ts =>
    match parseMnemonic m with
    | .ok mn =>
      match parseOperands mn ts with
      | .ok x => .ok (some x)
      | .error e => .error e
    | .error e => .error e
  | .comma :: _ => .error .badForm

/-- The command words of a text, line by line (R76, R77). One bad line rejects the whole text: there are no words, and the
error is that of the first bad line (DESIGN CHOICE, log 12). -/
def assemble : List (List Char) → Except AsmError (List CmdWord)
  | [] => .ok []
  | line :: rest =>
    match parseLine line, assemble rest with
    | .ok (some x), .ok ws => .ok (x.commands.map encode ++ ws)
    | .ok none, .ok ws => .ok ws
    | .error e, _ => .error e
    | .ok _, .error e => .error e

/-- The lines of a text: one command per line (R76). `acc` is the line being read, reversed. -/
def linesFrom : List Char → List Char → List (List Char)
  | acc, [] => [acc.reverse]
  | acc, ch :: cs => if ch == '\n' then acc.reverse :: linesFrom [] cs else linesFrom (ch :: acc) cs

/-- The command words of a whole text (R76, R77). -/
def assembleText (text : List Char) : Except AsmError (List CmdWord) := assemble (linesFrom [] text)

/-! ## Listing -/

/-- An upper-case hexadecimal digit. -/
def hexDigit (d : BitVec 4) : Char :=
  if d.toNat < 10 then Char.ofNat (48 + d.toNat) else Char.ofNat (55 + d.toNat)

/-- A value as the spec writes it, `0x` and four digits (log 12). -/
def hexWord (v : Word) : List Char :=
  ['0', 'x', hexDigit (v.extractLsb' 12 4), hexDigit (v.extractLsb' 8 4), hexDigit (v.extractLsb' 4 4),
    hexDigit (v.extractLsb' 0 4)]

/-- A boolean as the spec writes it. -/
def boolName (b : Bool) : List Char := if b then trueName else falseName

/-- A command as one line of text in the form of R76. -/
def listing : Instr → List Char
  | .nop => mnemonicName .nop
  | .getR8 r => mnemonicName .getR8 ++ ' ' :: reg8Name r
  | .setR8 r v => mnemonicName .setR8 ++ ' ' :: (reg8Name r ++ ',' :: ' ' :: hexWord v)
  | .getR16 r => mnemonicName .getR16 ++ ' ' :: reg16Name r
  | .setR16 r v => mnemonicName .setR16 ++ ' ' :: (reg16Name r ++ ',' :: ' ' :: hexWord v)
  | .getPair p => mnemonicName .getPair ++ ' ' :: pairName p
  | .setPair p v => mnemonicName .setPair ++ ' ' :: (pairName p ++ ',' :: ' ' :: hexWord v)
  | .getFlag f => mnemonicName .getFlag ++ ' ' :: flagName f
  | .setFlag f b => mnemonicName .setFlag ++ ' ' :: (flagName f ++ ',' :: ' ' :: boolName b)
  | .powerUp v => mnemonicName .powerUp ++ ' ' :: variantName v

end Sys2Proof.Machine
end

