-- ==== Sys2Proof/Machine/Instances.lean ====
section
/-! DEFINITION. Several instances side by side (60_exceptions.md R142; 10_state.md R30): separate state values, each with
its own port, and a step that names the instance it acts on. -/

namespace Sys2Proof.Machine

/-- A system of `n` instances (60_exceptions.md R142). -/
structure System (n : Nat) where
  inst : Vector State n
  deriving DecidableEq, Repr

/-- A step of the system: one edge of instance `k`, no other instance touched (60_exceptions.md R142). -/
def System.step {n : Nat} (y : System n) (k : Fin n) : Host.Outcome (System n) Fault Refusal :=
  match Sys2Proof.Machine.step y.inst[k] with
  | .next t => .next { inst := y.inst.set k t }
  | .fault r => .fault r
  | .refused r => .refused r

/-- Duplication copies the state value of instance `src` into instance `dst` (10_state.md R30). -/
def System.duplicate {n : Nat} (y : System n) (src dst : Fin n) : System n :=
  { inst := y.inst.set dst y.inst[src] }

end Sys2Proof.Machine
end

