-- ==== Sys2Proof/Safety.lean ====
section
/-! DEFINITION. What the claims call safe: the invariant of the state (10_state.md R20), the ports that an interpreter
may present (70_reset_and_hazards.md R156, R158), and runs that never stop (60_exceptions.md R130; 70_reset_and_hazards.md R164). -/

namespace Sys2Proof.Machine

/-- Bits 3 to 0 of F are zero (10_state.md R20). -/
abbrev Cells.Inv (c : Cells) : Prop := c.f &&& 0x0F#8 = 0#8

/-- The invariant of the machine: that of its cells (10_state.md R20, R29). -/
abbrev State.Inv (s : State) : Prop := s.cells.Inv

/-- The edge presents no reserved word (70_reset_and_hazards.md R158). A word at an edge with RESET = 1 or
CMD_VALID = 0 is not read (30_encoding.md R60). -/
def Edge.conforms (e : Edge) : Bool :=
  match e.presented with
  | .command w => legalWord w
  | .idle => true
  | .reset _ => true

/-- Every edge to come conforms (70_reset_and_hazards.md R158). -/
def portConforms (es : List Edge) : Bool := es.all Edge.conforms

/-- The first step at the port is a reset or a `power_up` command (70_reset_and_hazards.md R156); idle edges are no steps. -/
def startsWithPowerUp : List Edge → Bool
  | [] => true
  | e :: es =>
    match e.presented with
    | .idle => startsWithPowerUp es
    | .reset _ => true
    | .command w =>
      match decode w with
      | .ok (.powerUp _) => true
      | _ => false

/-- The machine takes `k` steps from `s` for every `k` (70_reset_and_hazards.md R164). -/
def NeverStops (s : State) : Prop := ∀ k, ∃ t, Host.Core.run Sys2Proof.core k s = .next t

end Sys2Proof.Machine
end

