-- ==== Sys2Proof/Certificates/Slice0/Obligations.lean ====
section
/-! DEFINITION. The statements about the model, taken from the numbered rules of the spec. `Sys2Proof.Claims` holds the
tables of the spec that several statements share, written from the spec and not from the meanings. Where a statement
speaks of edges at the port, that they stand in a list and that one step takes the first of them is the model's form of
the command stream (logs 1 and 10). -/

namespace Sys2Proof.Claims

open Sys2Proof.Machine

/-- The number of an 8-bit cell in SEL (30_encoding.md R63). -/
def reg8Number : Reg8 → Nat
  | .a => 0 | .f => 1 | .b => 2 | .c => 3 | .d => 4 | .e => 5 | .h => 6 | .l => 7

/-- The number of a 16-bit cell in SEL (R64). -/
def reg16Number : Reg16 → Nat
  | .sp => 0 | .pc => 1

/-- The number of a pair in SEL (R65). -/
def pairNumber : Pair → Nat
  | .af => 0 | .bc => 1 | .de => 2 | .hl => 3

/-- The number of a flag in SEL (R66). -/
def flagNumber : Flag → Nat
  | .zf => 0 | .nf => 1 | .hf => 2 | .cf => 3

/-- The number of a variant in SEL and on the strap (R67). -/
def variantNumber : Variant → Nat
  | .gb => 0 | .gbp => 1 | .gbc => 2 | .sgb => 3

/-- The word of a command as one number: OP, SEL and DATA at their places (30_encoding.md R61, R62). -/
def wordNumber : Instr → Nat
  | .nop => 0
  | .getR8 r => 0x100000 + 0x10000 * reg8Number r
  | .setR8 r v => 0x200000 + 0x10000 * reg8Number r + v.toNat
  | .getR16 r => 0x300000 + 0x10000 * reg16Number r
  | .setR16 r v => 0x400000 + 0x10000 * reg16Number r + v.toNat
  | .getPair p => 0x500000 + 0x10000 * pairNumber p
  | .setPair p v => 0x600000 + 0x10000 * pairNumber p + v.toNat
  | .getFlag f => 0x700000 + 0x10000 * flagNumber f
  | .setFlag f b => 0x800000 + 0x10000 * flagNumber f + b.toNat
  | .powerUp v => 0x900000 + 0x10000 * variantNumber v

/-- The number of bits a command returns, if it returns (30_encoding.md R62, R74). -/
def returnWidth : Instr → Option Nat
  | .getR8 _ => some 8
  | .getR16 _ => some 16
  | .getPair _ => some 16
  | .getFlag _ => some 1
  | .nop => none
  | .setR8 _ _ => none
  | .setR16 _ _ => none
  | .setPair _ _ => none
  | .setFlag _ _ => none
  | .powerUp _ => none

/-- The number of bits of a result. -/
def resultWidth : Result → Nat
  | .byte _ => 8
  | .word _ => 16
  | .bit _ => 1

/-- The column "cells written" of 20_memory.md R44, 8-bit cells. -/
def writes8 (i : Instr) (r : Reg8) : Prop :=
  match i with
  | .setR8 q _ => r = q
  | .setPair p _ => r = pairHi p ∨ r = pairLo p
  | .setFlag _ _ => r = .f
  | .powerUp _ => True
  | .nop => False
  | .getR8 _ => False
  | .getR16 _ => False
  | .setR16 _ _ => False
  | .getPair _ => False
  | .getFlag _ => False

/-- The column "cells written" of 20_memory.md R44, 16-bit cells. -/
def writes16 (i : Instr) (r : Reg16) : Prop :=
  match i with
  | .setR16 q _ => r = q
  | .powerUp _ => True
  | .nop => False
  | .getR8 _ => False
  | .setR8 _ _ => False
  | .getR16 _ => False
  | .getPair _ => False
  | .setPair _ _ => False
  | .getFlag _ => False
  | .setFlag _ _ => False

/-- The column "cells read" of 20_memory.md R44, 8-bit cells. -/
def reads8 (i : Instr) (r : Reg8) : Prop :=
  match i with
  | .getR8 q => r = q
  | .getPair p => r = pairHi p ∨ r = pairLo p
  | .getFlag _ => r = .f
  | .setFlag _ _ => r = .f
  | .nop => False
  | .setR8 _ _ => False
  | .getR16 _ => False
  | .setR16 _ _ => False
  | .setPair _ _ => False
  | .powerUp _ => False

/-- The column "cells read" of 20_memory.md R44, 16-bit cells. -/
def reads16 (i : Instr) (r : Reg16) : Prop :=
  match i with
  | .getR16 q => r = q
  | .nop => False
  | .getR8 _ => False
  | .setR8 _ _ => False
  | .setR16 _ _ => False
  | .getPair _ => False
  | .setPair _ _ => False
  | .getFlag _ => False
  | .setFlag _ _ => False
  | .powerUp _ => False

/-- The `get_` commands and `nop` (20_memory.md R46). -/
def readsOnly (i : Instr) : Prop := (∀ r, ¬ writes8 i r) ∧ ∀ r, ¬ writes16 i r

/-- The mask of the flag with selector `s`: 0x80 >> s (10_state.md R22). -/
def maskOf (f : Flag) : Byte := 0x80#8 >>> flagNumber f

/-- The value of an 8-bit cell after a command: the last one written to it, by whatever path (40_reg_access.md R91, R92;
41_pair_access.md R101 to R103; 42_flag_access.md R111; 43_system.md R120). -/
def byteAfter (i : Instr) (c : Cells) (r : Reg8) : Byte :=
  match i with
  | .setR8 q v => if r = q then (if r = .f then v.setWidth 8 &&& 0xF0#8 else v.setWidth 8) else c.read8 r
  | .setPair p v =>
    if r = pairHi p then (v >>> 8).setWidth 8
    else if r = pairLo p then (v &&& (if p = .af then 0x00F0#16 else 0x00FF#16)).setWidth 8
    else c.read8 r
  | .setFlag f b =>
    if r = .f then (if b then c.f ||| maskOf f else c.f &&& (0xFF#8 ^^^ maskOf f)) else c.read8 r
  | .powerUp v => (Config.current.powerUpTable v).read8 r
  | .nop => c.read8 r
  | .getR8 _ => c.read8 r
  | .getR16 _ => c.read8 r
  | .setR16 _ _ => c.read8 r
  | .getPair _ => c.read8 r
  | .getFlag _ => c.read8 r

/-- The value of a 16-bit cell after a command (40_reg_access.md R94; 43_system.md R120). -/
def wordAfter (i : Instr) (c : Cells) (r : Reg16) : Word :=
  match i with
  | .setR16 q v => if r = q then v else c.read16 r
  | .powerUp v => (Config.current.powerUpTable v).read16 r
  | .nop => c.read16 r
  | .getR8 _ => c.read16 r
  | .setR8 _ _ => c.read16 r
  | .getR16 _ => c.read16 r
  | .getPair _ => c.read16 r
  | .setPair _ _ => c.read16 r
  | .getFlag _ => c.read16 r
  | .setFlag _ _ => c.read16 r

/-- The ten cells of 10_state.md R33, given the entry for A. -/
def powerUpRow (a : Byte) : Cells := ⟨a, 0xB0#8, 0x00#8, 0x13#8, 0x00#8, 0xD8#8, 0x01#8, 0x4D#8, 0xFFFE#16, 0x0100#16⟩

/-- The entry for A of 10_state.md R33. -/
def powerUpA : Variant → Byte
  | .gb => 0x01#8 | .gbp => 0xFF#8 | .gbc => 0x11#8 | .sgb => 0x01#8

end Sys2Proof.Claims

open Sys2Proof Sys2Proof.Machine Sys2Proof.Claims

/-! ## Encoding -/

/-- Words written out from 30_encoding.md R61 to R67 and 95_test_vectors.md section 3, accepted and refused. -/
def Obligations.WrittenOutWordsDecodeAsListed : Prop :=
  decode 0x000000#24 = .ok .nop ∧ decode 0x150000#24 = .ok (.getR8 .e) ∧
  decode 0x201234#24 = .ok (.setR8 .a 0x1234#16) ∧ decode 0x310000#24 = .ok (.getR16 .pc) ∧
  decode 0x40FFFC#24 = .ok (.setR16 .sp 0xFFFC#16) ∧ decode 0x520000#24 = .ok (.getPair .de) ∧
  decode 0x63C000#24 = .ok (.setPair .hl 0xC000#16) ∧ decode 0x710000#24 = .ok (.getFlag .nf) ∧
  decode 0x830001#24 = .ok (.setFlag .cf true) ∧ decode 0x920000#24 = .ok (.powerUp .gbc) ∧
  decode 0x000001#24 = .error .dataNotZero ∧ decode 0x180000#24 = .error .selNotZero ∧
  decode 0x42FFFF#24 = .error .selNotZero ∧ decode 0x830002#24 = .error .dataNotZero ∧
  decode 0xA00000#24 = .error .opUnassigned ∧ decode 0xFFFFFF#24 = .error .opUnassigned

/-- The words of the commands, as numbers: a word decodes to a command exactly when it is this number
(30_encoding.md R61 to R67, R69, R72). -/
def Obligations.WordDecodesToCommandIffItIsItsNumber : Prop :=
  ∀ (w : CmdWord) (i : Instr), decode w = .ok i ↔ w.toNat = wordNumber i

/-- Decoding and encoding are inverse (30_encoding.md R73): the encoder's fields, both round trips, injectivity, and
the two readings of `set_r8`'s high DATA byte. -/
def Obligations.EncodeAndDecodeAreInverse : Prop :=
  (∀ i, opOf (encode i) = i.op ∧ selOf (encode i) = i.sel ∧ dataOf (encode i) = i.data) ∧
  (∀ r v, (Instr.setR8 r v).data = v) ∧ (∀ r v, (Instr.setR16 r v).data = v) ∧ (∀ p v, (Instr.setPair p v).data = v) ∧
  (∀ f, (Instr.setFlag f true).data = 1#16 ∧ (Instr.setFlag f false).data = 0#16) ∧
  (∀ i, returnWidth i ≠ none ∨ i = .nop ∨ (∃ v, i = .powerUp v) → i.data = 0#16) ∧
  (∀ i, decode (encode i) = .ok i) ∧
  (∀ w i, decode w = .ok i → encode i = w) ∧
  (∀ w x i, decode w = .ok i → decode x = .ok i → w = x) ∧
  (∀ cs n r, numberValue cs = some n → n < 256 →
    ∃ v, parseNumber cs = .ok v ∧ (dataOf (encode (.setR8 r v))).extractLsb' 8 8 = 0#8) ∧
  (∀ r v s, ∃ w, decode (packWord 0x2#4 (0#1 ++ r.code) v) = .ok (.setR8 r v) ∧
    decode (packWord 0x2#4 (0#1 ++ r.code) w) = .ok (.setR8 r w) ∧ w.extractLsb' 8 8 = 0#8 ∧
    w.extractLsb' 0 8 = v.extractLsb' 0 8 ∧ exec (.setR8 r v) s = exec (.setR8 r w) s)

/-- A word is reserved exactly when its OP is unassigned or a must-be-zero bit is 1 (30_encoding.md R70 a, b, c), and each
command has exactly one word. -/
def Obligations.ReservedWordsAreThoseWithAMustBeZeroBit : Prop :=
  (∀ w : CmdWord, (∃ why, decode w = .error why) ↔
    (opOf w = 0x1#4 ∨ opOf w = 0x2#4) ∧ w.getLsbD 19 = true ∨
    (opOf w = 0x3#4 ∨ opOf w = 0x4#4) ∧ w.extractLsb' 17 3 ≠ 0#3 ∨
    (0x5#4 ≤ opOf w ∧ opOf w ≤ 0x9#4) ∧ w.extractLsb' 18 2 ≠ 0#2 ∨
    opOf w = 0x0#4 ∧ w.extractLsb' 16 4 ≠ 0#4 ∨
    (opOf w = 0x0#4 ∨ opOf w = 0x1#4 ∨ opOf w = 0x3#4 ∨ opOf w = 0x5#4 ∨ opOf w = 0x7#4 ∨ opOf w = 0x9#4) ∧
      w.extractLsb' 0 16 ≠ 0#16 ∨
    opOf w = 0x8#4 ∧ w.extractLsb' 1 15 ≠ 0#15 ∨
    0xA#4 ≤ opOf w) ∧
  (∀ w : CmdWord, legalWord w = true ↔ ∃ i, decode w = .ok i) ∧
  (∀ i, ∃ w, decode w = .ok i ∧ ∀ x, decode x = .ok i → x = w)

/-- The number of legal words, in all and per command (30_encoding.md R71, the table). -/
def Obligations.LegalWordsAreCounted : Prop :=
  (Finset.univ.filter fun w : CmdWord => legalWord w = true).card = 917535 ∧
  (opRows.map fun r => (Finset.univ.filter fun w : CmdWord => r.accepts w = true).card) =
    [1, 8, 524288, 2, 131072, 4, 262144, 4, 8, 4]

/-- The match and mask form of the opcode map (30_encoding.md R78). -/
def Obligations.RowsMatchExactlyTheLegalWords : Prop :=
  opRows = [⟨0x000000#24, 0xFFFFFF#24⟩, ⟨0x100000#24, 0xF8FFFF#24⟩, ⟨0x200000#24, 0xF80000#24⟩,
    ⟨0x300000#24, 0xFEFFFF#24⟩, ⟨0x400000#24, 0xFE0000#24⟩, ⟨0x500000#24, 0xFCFFFF#24⟩, ⟨0x600000#24, 0xFC0000#24⟩,
    ⟨0x700000#24, 0xFCFFFF#24⟩, ⟨0x800000#24, 0xFCFFFE#24⟩, ⟨0x900000#24, 0xFCFFFF#24⟩] ∧
  (∀ i : Instr, opRows[i.op.toNat]? = some i.row) ∧
  (∀ i : Instr, ∃ m, mustBeZero i.op = some m ∧ i.row.mask = 0xF00000#24 ||| m) ∧
  (∀ (w : CmdWord) (i : Instr), decode w = .ok i → i.row.accepts w = true) ∧
  (∀ (w : CmdWord) (r : OpRow), r ∈ opRows → r.accepts w = true → ∃ i, decode w = .ok i ∧ i.row = r) ∧
  (∀ (w : CmdWord) (r q : OpRow), r ∈ opRows → q ∈ opRows → r.accepts w = true → q.accepts w = true → r = q) ∧
  (∀ w : CmdWord, (∀ r ∈ opRows, r.accepts w = false) → ∃ why, decode w = .error why)

/-- The selector codes (30_encoding.md R63 to R67), with the facts those rules attach to them (10_state.md R16, R22). -/
def Obligations.SelectorCodesAreTheTables : Prop :=
  (∀ op sel data r, (op = 0x1#4 ∧ data = 0#16 ∧ decodeFields op sel data = .ok (.getR8 r)) ∨
      (op = 0x2#4 ∧ decodeFields op sel data = .ok (.setR8 r data)) →
    sel.getLsbD 3 = false ∧ (sel.extractLsb' 0 3).toNat = reg8Number r) ∧
  (∀ op sel data r, (op = 0x3#4 ∧ data = 0#16 ∧ decodeFields op sel data = .ok (.getR16 r)) ∨
      (op = 0x4#4 ∧ decodeFields op sel data = .ok (.setR16 r data)) →
    sel.extractLsb' 1 3 = 0#3 ∧ (sel.extractLsb' 0 1).toNat = reg16Number r) ∧
  (∀ op sel data p, (op = 0x5#4 ∧ data = 0#16 ∧ decodeFields op sel data = .ok (.getPair p)) ∨
      (op = 0x6#4 ∧ decodeFields op sel data = .ok (.setPair p data)) →
    sel.extractLsb' 2 2 = 0#2 ∧ (sel.extractLsb' 0 2).toNat = pairNumber p) ∧
  (∀ op sel data f, (op = 0x7#4 ∧ data = 0#16 ∧ decodeFields op sel data = .ok (.getFlag f)) ∨
      (op = 0x8#4 ∧ decodeFields op sel data = .ok (.setFlag f (data.getLsbD 0))) →
    sel.extractLsb' 2 2 = 0#2 ∧ (sel.extractLsb' 0 2).toNat = flagNumber f) ∧
  (∀ sel v, decodeFields 0x9#4 sel 0#16 = .ok (.powerUp v) →
    sel.extractLsb' 2 2 = 0#2 ∧ (sel.extractLsb' 0 2).toNat = variantNumber v) ∧
  (∀ r, ∃ k, k.toNat = reg8Number r ∧ cell8 k = r) ∧ (∀ r, ∃ k, k.toNat = reg16Number r ∧ cell16 k = r) ∧
  (∀ p, ∃ k, k.toNat = pairNumber p ∧ pairOf k = p) ∧ (∀ f, ∃ k, k.toNat = flagNumber f ∧ flagOf k = f) ∧
  (∀ (e : Edge) (v : Variant), e.reset = true → e.variant.toNat = variantNumber v → e.presented = .reset v) ∧
  (∀ p, reg8Number (pairHi p) = 2 * pairNumber p ∧ reg8Number (pairLo p) = 2 * pairNumber p + 1) ∧
  (∀ f, flagMask f = 0x80#8 >>> flagNumber f ∧ ∀ n, (flagMask f).getLsbD n = decide (n = 7 - flagNumber f))

/-! ## Text -/

/-- The assembler reads every command back from its listing, to the command and to the command's word (30_encoding.md R76,
R73). The listing's spelling of values is the model's choice within R76 (log 12). -/
def Obligations.AssemblerReadsEveryListing : Prop :=
  ∀ i, parseLine (listing i) = .ok (some (.command i)) ∧ assemble [listing i] = .ok [encode i]

/-- Comments, values and names of the textual form (30_encoding.md R76). A number is a text to which `numberValue` gives a
value; how it reads decimal and `0x` digits is stated in `NumbersAreReadInDecimalAndHexadecimal`. That a boolean is spelled
exactly so, that the tokens are these and that the error is called `numberTooLarge` is the model's choice within R76 (log 12). -/
def Obligations.AssemblerFollowsTheTextualForm : Prop :=
  (∀ line comment, parseLine (line ++ '#' :: comment) = parseLine line) ∧
  (∀ cs n, numberValue cs = some n → n < 65536 → parseNumber cs = .ok (BitVec.ofNat 16 n)) ∧
  (∀ cs n, numberValue cs = some n → 65536 ≤ n → parseNumber cs = .error .numberTooLarge) ∧
  (∀ cs b, parseBool cs = .ok b ↔ cs = (if b then trueName else falseName) ∨ cs = [if b then '1' else '0']) ∧
  (∀ f, parseFlag (flagName f) = .ok f ∧ parseFlag (flagSynonym f) = .ok f) ∧
  (∀ cs f, parseFlag cs = .ok f → cs = flagName f ∨ cs = flagSynonym f) ∧
  (∀ cs r, parseReg8 cs = .ok r ↔ cs = reg8Name r) ∧ (∀ cs r, parseReg16 cs = .ok r ↔ cs = reg16Name r) ∧
  (∀ cs p, parsePair cs = .ok p ↔ cs = pairName p) ∧ (∀ cs v, parseVariant cs = .ok v ↔ cs = variantName v)

/-- The expansions of the three pseudo-instructions (30_encoding.md R77), and that `reset v` is the step of the RESET pin. -/
def Obligations.PseudoInstructionsExpandAsListed : Prop :=
  (∀ v, (Pseudo.reset v).expand = [.powerUp v]) ∧
  (∀ (v : Variant) (s : State) (x : Bool) (w : CmdWord),
    step { s with port := { reset := true, variant := v.code, cmdValid := x, cmd := w } :: s.port } =
    execSeq (Pseudo.reset v).expand s) ∧
  Pseudo.snapshot.expand = [.getR8 .a, .getR8 .f, .getR8 .b, .getR8 .c, .getR8 .d, .getR8 .e, .getR8 .h, .getR8 .l,
    .getR16 .sp, .getR16 .pc] ∧
  (∀ a f b c d e h l sp pc, (Pseudo.restore a f b c d e h l sp pc).expand =
    [.setR8 .a a, .setR8 .f f, .setR8 .b b, .setR8 .c c, .setR8 .d d, .setR8 .e e, .setR8 .h h, .setR8 .l l,
      .setR16 .sp sp, .setR16 .pc pc])

/-! ## The ten commands: result, frame and completion -/

/-- `nop` (43_system.md R121): its one word, no cell changes, and an idle edge leaves the same state. That the model takes a
step at an idle edge, and that this step shows no result, is the model's choice (log 10): for the block such an edge is not
a step (R121; 30_encoding.md R60). -/
def Obligations.NopChangesNothing : Prop :=
  (∀ s, exec .nop s = .next { s with result := none }) ∧
  (∀ w, decode w = .ok .nop ↔ w = 0x000000#24) ∧
  (∀ (s : State) (e : Edge), e.reset = false → e.cmdValid = false → step { s with port := e :: s.port } = exec .nop s) ∧
  (∀ s : State, exec .nop { s with cells := powerUpRow 0x01#8 } = .next { s with cells := powerUpRow 0x01#8, result := none })

/-- `get_r8 r` (40_reg_access.md R90). -/
def Obligations.GetR8ReturnsTheCell : Prop :=
  (∀ s, exec (.getR8 .a) s = .next { s with result := some (.byte s.cells.a) } ∧
    exec (.getR8 .f) s = .next { s with result := some (.byte s.cells.f) } ∧
    exec (.getR8 .b) s = .next { s with result := some (.byte s.cells.b) } ∧
    exec (.getR8 .c) s = .next { s with result := some (.byte s.cells.c) } ∧
    exec (.getR8 .d) s = .next { s with result := some (.byte s.cells.d) } ∧
    exec (.getR8 .e) s = .next { s with result := some (.byte s.cells.e) } ∧
    exec (.getR8 .h) s = .next { s with result := some (.byte s.cells.h) } ∧
    exec (.getR8 .l) s = .next { s with result := some (.byte s.cells.l) }) ∧
  (∀ r, decode (packWord 0x1#4 (0#1 ++ r.code) 0x0000#16) = .ok (.getR8 r)) ∧
  (∀ r s t, exec (.getR8 r) s = .next t → t.resp = (s.cells.read8 r).setWidth 16) ∧
  (∀ s t, s.Inv → exec (.getR8 .f) s = .next t → t.resp &&& 0x000F#16 = 0#16) ∧
  (∀ i r s t u, exec i s = .next t → exec (.getR8 r) t = .next u →
    u.result = some (.byte (byteAfter i s.cells r))) ∧
  decode 0x150000#24 = .ok (.getR8 .e) ∧
  (∀ s t u, exec (.powerUp .gb) s = .next t → exec (.getR8 .e) t = .next u → u.result = some (.byte 0xD8#8))

/-- `set_r8 r, v` (40_reg_access.md R91), with the mask of F (R92): the low byte of `v` and nothing else. -/
def Obligations.SetR8WritesTheLowByte : Prop :=
  (∀ v s,
    exec (.setR8 .a v) s = .next { s with cells := { s.cells with a := v.setWidth 8 }, result := none } ∧
    exec (.setR8 .f v) s = .next { s with cells := { s.cells with f := v.setWidth 8 &&& 0xF0#8 }, result := none } ∧
    exec (.setR8 .b v) s = .next { s with cells := { s.cells with b := v.setWidth 8 }, result := none } ∧
    exec (.setR8 .c v) s = .next { s with cells := { s.cells with c := v.setWidth 8 }, result := none } ∧
    exec (.setR8 .d v) s = .next { s with cells := { s.cells with d := v.setWidth 8 }, result := none } ∧
    exec (.setR8 .e v) s = .next { s with cells := { s.cells with e := v.setWidth 8 }, result := none } ∧
    exec (.setR8 .h v) s = .next { s with cells := { s.cells with h := v.setWidth 8 }, result := none } ∧
    exec (.setR8 .l v) s = .next { s with cells := { s.cells with l := v.setWidth 8 }, result := none }) ∧
  (∀ r v, decode (packWord 0x2#4 (0#1 ++ r.code) v) = .ok (.setR8 r v)) ∧
  (∀ v s t, exec (.setR8 .f v) s = .next t → t.cells.flag .zf = v.getLsbD 7 ∧ t.cells.flag .nf = v.getLsbD 6 ∧
    t.cells.flag .hf = v.getLsbD 5 ∧ t.cells.flag .cf = v.getLsbD 4) ∧
  (∀ s t, exec (.setR8 .a 0x1234#16) s = .next t → t.cells.a = 0x34#8) ∧
  (∀ s t, exec (.setR8 .f 0x00FF#16) s = .next t → t.cells.f = 0xF0#8) ∧
  decode 0x22007E#24 = .ok (.setR8 .b 0x007E#16) ∧
  (∀ s t u, exec (.setR8 .b 0x007E#16) s = .next t → exec (.getPair .bc) t = .next u →
    t.cells.b = 0x7E#8 ∧ u.result = some (.word (0x7E#8 ++ s.cells.c))) ∧
  (∀ x s t u, s.Inv → exec (.getR8 .f) s = .next t → t.result = some (.byte x) →
    exec (.setR8 .f (x.setWidth 16)) s = .next u → u.cells = s.cells)

/-- `get_r16 s` (40_reg_access.md R93): reading moves neither PC nor SP. -/
def Obligations.GetR16ReturnsTheCell : Prop :=
  (∀ s, exec (.getR16 .sp) s = .next { s with result := some (.word s.cells.sp) } ∧
    exec (.getR16 .pc) s = .next { s with result := some (.word s.cells.pc) }) ∧
  (∀ r, decode (packWord 0x3#4 (0#3 ++ r.code) 0x0000#16) = .ok (.getR16 r)) ∧
  (∀ i r s t u, exec i s = .next t → exec (.getR16 r) t = .next u →
    u.result = some (.word (wordAfter i s.cells r))) ∧
  decode 0x310000#24 = .ok (.getR16 .pc) ∧ decode 0x300000#24 = .ok (.getR16 .sp) ∧
  (∀ s t u, exec (.powerUp .gbc) s = .next t → exec (.getR16 .pc) t = .next u → u.result = some (.word 0x0100#16)) ∧
  (∀ s t u, exec (.powerUp .gbc) s = .next t → exec (.getR16 .sp) t = .next u → u.result = some (.word 0xFFFE#16))

/-- `set_r16 s, v` (40_reg_access.md R94): all sixteen bits, every value, no other effect. -/
def Obligations.SetR16WritesAllSixteenBits : Prop :=
  (∀ v s, exec (.setR16 .sp v) s = .next { s with cells := { s.cells with sp := v }, result := none } ∧
    exec (.setR16 .pc v) s = .next { s with cells := { s.cells with pc := v }, result := none }) ∧
  (∀ r v, decode (packWord 0x4#4 (0#3 ++ r.code) v) = .ok (.setR16 r v)) ∧
  (∀ v s e rest, s.port = e :: rest → ∀ t, exec (.setR16 .pc v) s = .next t → t.port = e :: rest) ∧
  decode 0x410150#24 = .ok (.setR16 .pc 0x0150#16) ∧ decode 0x40DFFF#24 = .ok (.setR16 .sp 0xDFFF#16)

/-- `get_pair p` (41_pair_access.md R100): high byte first. -/
def Obligations.GetPairReturnsHighThenLow : Prop :=
  (∀ s, exec (.getPair .af) s = .next { s with result := some (.word (s.cells.a ++ s.cells.f)) } ∧
    exec (.getPair .bc) s = .next { s with result := some (.word (s.cells.b ++ s.cells.c)) } ∧
    exec (.getPair .de) s = .next { s with result := some (.word (s.cells.d ++ s.cells.e)) } ∧
    exec (.getPair .hl) s = .next { s with result := some (.word (s.cells.h ++ s.cells.l)) }) ∧
  (∀ p, decode (packWord 0x5#4 (0#2 ++ p.code) 0x0000#16) = .ok (.getPair p)) ∧
  (∀ p s t, exec (.getPair p) s = .next t → t.resp =
    ((s.cells.read8 (pairHi p)).setWidth 16 <<< 8) ||| (s.cells.read8 (pairLo p)).setWidth 16) ∧
  (∀ s t, s.Inv → exec (.getPair .af) s = .next t → t.resp &&& 0x000F#16 = 0#16) ∧
  (∀ s t, exec (.getPair .af) s = .next t → t.resp.getLsbD 7 = s.cells.flag .zf ∧
    t.resp.getLsbD 6 = s.cells.flag .nf ∧ t.resp.getLsbD 5 = s.cells.flag .hf ∧ t.resp.getLsbD 4 = s.cells.flag .cf) ∧
  (∀ i p s t u, exec i s = .next t → exec (.getPair p) t = .next u →
    u.result = some (.word (byteAfter i s.cells (pairHi p) ++ byteAfter i s.cells (pairLo p)))) ∧
  decode 0x530000#24 = .ok (.getPair .hl) ∧ decode 0x500000#24 = .ok (.getPair .af) ∧
  (∀ s t u, exec (.powerUp .gb) s = .next t → exec (.getPair .hl) t = .next u → u.result = some (.word 0x014D#16)) ∧
  (∀ s t u, exec (.powerUp .gb) s = .next t → exec (.getPair .af) t = .next u → u.result = some (.word 0x01B0#16))

/-- `set_pair p, v` (41_pair_access.md R101): the high byte whole, the low byte masked for AF (R102) and whole for the
others (R103). -/
def Obligations.SetPairWritesBothCells : Prop :=
  (∀ v s,
    exec (.setPair .af v) s = .next { s with
      cells := { s.cells with a := (v >>> 8).setWidth 8, f := (v &&& 0x00F0#16).setWidth 8 }, result := none } ∧
    exec (.setPair .bc v) s = .next { s with
      cells := { s.cells with b := (v >>> 8).setWidth 8, c := (v &&& 0x00FF#16).setWidth 8 }, result := none } ∧
    exec (.setPair .de v) s = .next { s with
      cells := { s.cells with d := (v >>> 8).setWidth 8, e := (v &&& 0x00FF#16).setWidth 8 }, result := none } ∧
    exec (.setPair .hl v) s = .next { s with
      cells := { s.cells with h := (v >>> 8).setWidth 8, l := (v &&& 0x00FF#16).setWidth 8 }, result := none }) ∧
  (∀ v : Word, (v &&& 0x00FF#16).setWidth 8 = v.extractLsb' 0 8 ∧
    (v &&& 0x00F0#16).setWidth 8 = v.extractLsb' 0 8 &&& 0xF0#8 ∧ (v >>> 8).setWidth 8 = v.extractLsb' 8 8) ∧
  (∀ p v, decode (packWord 0x6#4 (0#2 ++ p.code) v) = .ok (.setPair p v)) ∧
  (∀ v s t, exec (.setPair .af v) s = .next t → t.cells.flag .zf = v.getLsbD 7 ∧ t.cells.flag .nf = v.getLsbD 6 ∧
    t.cells.flag .hf = v.getLsbD 5 ∧ t.cells.flag .cf = v.getLsbD 4) ∧
  (∀ p s t, exec (.setPair p 0xFFFF#16) s = .next t → t.cells.pair p = if p = .af then 0xFFF0#16 else 0xFFFF#16) ∧
  (∀ p s t, exec (.setPair p 0x0000#16) s = .next t → t.cells.pair p = 0x0000#16) ∧
  (∀ s t, exec (.setPair .af 0x000F#16) s = .next t → t.cells.a = 0x00#8 ∧ t.cells.f = 0x00#8) ∧
  (∀ v s t u, exec (.setPair .af v) s = .next t → exec (.getPair .af) t = .next u → u.resp &&& 0x000F#16 = 0#16) ∧
  decode 0x62BEEF#24 = .ok (.setPair .de 0xBEEF#16) ∧ decode 0x60BEEF#24 = .ok (.setPair .af 0xBEEF#16) ∧
  (∀ s t, exec (.setPair .de 0xBEEF#16) s = .next t → t.cells.d = 0xBE#8 ∧ t.cells.e = 0xEF#8) ∧
  (∀ s t, exec (.setPair .af 0xBEEF#16) s = .next t → t.cells.a = 0xBE#8 ∧ t.cells.f = 0xE0#8)

/-- `get_flag f` (42_flag_access.md R110): one bit of F, and only that bit matters. -/
def Obligations.GetFlagReturnsItsBit : Prop :=
  (∀ s, exec (.getFlag .zf) s = .next { s with result := some (.bit (s.cells.f &&& 0x80#8 != 0#8)) } ∧
    exec (.getFlag .nf) s = .next { s with result := some (.bit (s.cells.f &&& 0x40#8 != 0#8)) } ∧
    exec (.getFlag .hf) s = .next { s with result := some (.bit (s.cells.f &&& 0x20#8 != 0#8)) } ∧
    exec (.getFlag .cf) s = .next { s with result := some (.bit (s.cells.f &&& 0x10#8 != 0#8)) }) ∧
  (∀ f, decode (packWord 0x7#4 (0#2 ++ f.code) 0x0000#16) = .ok (.getFlag f)) ∧
  (∀ f s t, exec (.getFlag f) s = .next t →
    t.resp = if s.cells.f.getLsbD (7 - flagNumber f) then 0x0001#16 else 0x0000#16) ∧
  (∀ f s s' t t', s.cells.f.getLsbD (7 - flagNumber f) = s'.cells.f.getLsbD (7 - flagNumber f) →
    exec (.getFlag f) s = .next t → exec (.getFlag f) s' = .next t' → t.result = t'.result) ∧
  (∀ i f s t u, exec i s = .next t → exec (.getFlag f) t = .next u →
    u.result = some (.bit ((byteAfter i s.cells .f).getLsbD (7 - flagNumber f)))) ∧
  decode 0x700000#24 = .ok (.getFlag .zf) ∧ decode 0x710000#24 = .ok (.getFlag .nf) ∧
  decode 0x720000#24 = .ok (.getFlag .hf) ∧ decode 0x730000#24 = .ok (.getFlag .cf) ∧
  (∀ f s t u, exec (.powerUp .gb) s = .next t → exec (.getFlag f) t = .next u →
    u.result = some (.bit (f ≠ .nf)))

/-- `set_flag f, b` (42_flag_access.md R111), with the complements of R113. -/
def Obligations.SetFlagWritesOneBitOfF : Prop :=
  (∀ s,
    exec (.setFlag .zf true) s = .next { s with cells := { s.cells with f := s.cells.f ||| 0x80#8 }, result := none } ∧
    exec (.setFlag .nf true) s = .next { s with cells := { s.cells with f := s.cells.f ||| 0x40#8 }, result := none } ∧
    exec (.setFlag .hf true) s = .next { s with cells := { s.cells with f := s.cells.f ||| 0x20#8 }, result := none } ∧
    exec (.setFlag .cf true) s = .next { s with cells := { s.cells with f := s.cells.f ||| 0x10#8 }, result := none } ∧
    exec (.setFlag .zf false) s = .next { s with cells := { s.cells with f := s.cells.f &&& 0x7F#8 }, result := none } ∧
    exec (.setFlag .nf false) s = .next { s with cells := { s.cells with f := s.cells.f &&& 0xBF#8 }, result := none } ∧
    exec (.setFlag .hf false) s = .next { s with cells := { s.cells with f := s.cells.f &&& 0xDF#8 }, result := none } ∧
    exec (.setFlag .cf false) s = .next { s with cells := { s.cells with f := s.cells.f &&& 0xEF#8 }, result := none }) ∧
  (∀ f b, decode (packWord 0x8#4 (0#2 ++ f.code) ((BitVec.ofBool b).setWidth 16)) = .ok (.setFlag f b)) ∧
  (∀ f, ~~~(flagMask f) = 0xFF#8 ^^^ flagMask f ∧ ~~~(flagMask f) &&& 0x0F#8 = 0x0F#8) ∧
  (∀ f b s t, s.cells.flag f = b → exec (.setFlag f b) s = .next t → t.cells = s.cells) ∧
  (∀ f b s t, exec (.setFlag f b) s = .next t → t.cells.f &&& 0x0F#8 = s.cells.f &&& 0x0F#8 ∧
    ∀ n, n ≠ 7 - flagNumber f → (t.cells.pair .af).getLsbD n = (s.cells.pair .af).getLsbD n) ∧
  decode 0x810001#24 = .ok (.setFlag .nf true) ∧ decode 0x800000#24 = .ok (.setFlag .zf false) ∧
  (∀ s t u, s.cells.f = 0xB0#8 → exec (.setFlag .nf true) s = .next t → exec (.setFlag .zf false) t = .next u →
    t.cells.f = 0xF0#8 ∧ u.cells.f = 0x70#8)

/-- `power_up v` (43_system.md R120): all ten cells, whatever they held, and the same step as RESET. -/
def Obligations.PowerUpLoadsTheTable : Prop :=
  (∀ s, exec (.powerUp .gb) s = .next { s with cells := powerUpRow 0x01#8, result := none } ∧
    exec (.powerUp .gbp) s = .next { s with cells := powerUpRow 0xFF#8, result := none } ∧
    exec (.powerUp .gbc) s = .next { s with cells := powerUpRow 0x11#8, result := none } ∧
    exec (.powerUp .sgb) s = .next { s with cells := powerUpRow 0x01#8, result := none }) ∧
  (∀ v, decode (packWord 0x9#4 (0#2 ++ v.code) 0x0000#16) = .ok (.powerUp v)) ∧
  (∀ (v : Variant) (s : State) (e : Edge), e.reset = true → e.variant = v.code → step { s with port := e :: s.port } = exec (.powerUp v) s) ∧
  (∀ v s t, exec (.powerUp v) s = .next t → t.cells.flag .zf = true ∧ t.cells.flag .nf = false ∧
    t.cells.flag .hf = true ∧ t.cells.flag .cf = true) ∧
  (∀ v s s' t t', exec (.powerUp v) s = .next t → exec (.powerUp v) s' = .next t' → t.cells = t'.cells) ∧
  (∀ s, exec (.powerUp .gb) s = exec (.powerUp .sgb) s) ∧
  decode 0x910000#24 = .ok (.powerUp .gbp)

/-! ## What all commands have in common -/

/-- No command can fail (60_exceptions.md R130): one next state, and one result of the command's width for the
`get_` commands and none for the others; a legal word at the port has a step; nothing faults. -/
def Obligations.EveryCommandHasExactlyOneNextState : Prop :=
  (∀ i s, ∃ t, exec i s = .next t ∧ (∀ u, exec i s = .next u → u = t) ∧
    t.result.map resultWidth = returnWidth i) ∧
  (∀ (s : State) (e : Edge) (rest : List Edge), s.port = e :: rest → e.reset = false → e.cmdValid = true → legalWord e.cmd = true →
    ∃ t, step s = .next t ∧ t.port = rest) ∧
  (∀ i s r, exec i s ≠ .fault r) ∧ (∀ s r, step s ≠ .fault r)

/-- The value of every cell after every command is the last one written to it (10_state.md R18; the command rules R90 to
R94, R100 to R103, R110, R111, R120, R121). -/
def Obligations.EveryCellHoldsTheLastValueWritten : Prop :=
  ∀ i s t, exec i s = .next t →
    (∀ r, t.cells.read8 r = byteAfter i s.cells r) ∧ (∀ r, t.cells.read16 r = wordAfter i s.cells r)

/-- The table of access widths (20_memory.md R44): a command changes only the cells it writes; its result and the values
it writes depend only on the cells it reads; the widths moved. -/
def Obligations.CommandsReadAndWriteOnlyTheirCells : Prop :=
  (∀ i s t, exec i s = .next t → (∀ r, ¬ writes8 i r → t.cells.read8 r = s.cells.read8 r) ∧
    (∀ r, ¬ writes16 i r → t.cells.read16 r = s.cells.read16 r) ∧ t.port = s.port) ∧
  (∀ i s s' t t', (∀ r, reads8 i r → s.cells.read8 r = s'.cells.read8 r) →
    (∀ r, reads16 i r → s.cells.read16 r = s'.cells.read16 r) → exec i s = .next t → exec i s' = .next t' →
    t.result = t'.result ∧ (∀ r, writes8 i r → t.cells.read8 r = t'.cells.read8 r) ∧
    (∀ r, writes16 i r → t.cells.read16 r = t'.cells.read16 r)) ∧
  (∀ i s t, exec i s = .next t → t.result.map resultWidth = returnWidth i) ∧
  (∀ v w s, v.extractLsb' 4 4 = w.extractLsb' 4 4 → exec (.setR8 .f v) s = exec (.setR8 .f w) s)

/-- Reads have no side effect and are idempotent (20_memory.md R46). -/
def Obligations.ReadsHaveNoSideEffect : Prop :=
  (∀ i, (∃ n, returnWidth i = some n) ∨ i = .nop ↔ readsOnly i) ∧
  (∀ i s t, readsOnly i → exec i s = .next t → t.cells = s.cells ∧ t.port = s.port ∧ exec i t = .next t)

/-- Writes are idempotent, and depend on the old state only for `set_flag` (20_memory.md R47). -/
def Obligations.WritesAreIdempotent : Prop :=
  (∀ i s t, ¬ readsOnly i → exec i s = .next t → exec i t = .next t) ∧
  (∀ i s s' t t', (∀ f b, i ≠ .setFlag f b) → exec i s = .next t → exec i s' = .next t' →
    (∀ r, writes8 i r → t.cells.read8 r = t'.cells.read8 r) ∧
    (∀ r, writes16 i r → t.cells.read16 r = t'.cells.read16 r)) ∧
  (∀ f b s t, exec (.setFlag f b) s = .next t →
    ∀ n, n ≠ 7 - flagNumber f → t.cells.f.getLsbD n = s.cells.f.getLsbD n)

/-- What a mixed-width access sees (20_memory.md R42; 10_state.md R18). -/
def Obligations.MixedWidthAccessesSeeEachOther : Prop :=
  (∀ p v s t u, exec (.setPair p v) s = .next t → exec (.getR8 (pairHi p)) t = .next u →
    u.result = some (.byte (v.extractLsb' 8 8))) ∧
  (∀ p v s t u, exec (.setPair p v) s = .next t → exec (.getR8 (pairLo p)) t = .next u →
    u.result = some (.byte (v.extractLsb' 0 8 &&& if p = .af then 0xF0#8 else 0xFF#8))) ∧
  (∀ p a b s t, (execSeq [.setR8 (pairHi p) a, .setR8 (pairLo p) b, .getPair p] s = .next t ∨
      execSeq [.setR8 (pairLo p) b, .setR8 (pairHi p) a, .getPair p] s = .next t) →
    t.result = some (.word (a.extractLsb' 0 8 ++ (b.extractLsb' 0 8 &&& if p = .af then 0xF0#8 else 0xFF#8)))) ∧
  (∀ f b s t u, exec (.setFlag f b) s = .next t → (exec (.getR8 .f) t = .next u ∨ exec (.getPair .af) t = .next u) →
    u.resp.getLsbD (7 - flagNumber f) = b)

/-- The response port (30_encoding.md R74). -/
def Obligations.ResponsePortShowsTheResult : Prop :=
  (∀ i s t, exec i s = .next t → t.respValid = (returnWidth i).isSome) ∧
  (∀ i s t, exec i s = .next t → returnWidth i = none → t.resp = 0x0000#16) ∧
  (∀ r s t, exec (.getR8 r) s = .next t → t.resp = (s.cells.read8 r).setWidth 16) ∧
  (∀ r s t, exec (.getR16 r) s = .next t → t.resp = s.cells.read16 r) ∧
  (∀ p s t, exec (.getPair p) s = .next t → t.resp = s.cells.pair p) ∧
  (∀ f s t, exec (.getFlag f) s = .next t → t.resp = if s.cells.flag f then 0x0001#16 else 0x0000#16)

/-! ## Views and flags -/

/-- The views are computed from the cells: the cells of each pair (10_state.md R16), the value of a pair (R17), the
value of a flag (R21). -/
def Obligations.ViewsAreComputedFromTheCells : Prop :=
  (∀ c : Cells, ∀ p, c.pair p = ((c.read8 (pairHi p)).setWidth 16 <<< 8) ||| (c.read8 (pairLo p)).setWidth 16) ∧
  (∀ c : Cells, c.pair .af = c.a ++ c.f ∧ c.pair .bc = c.b ++ c.c ∧ c.pair .de = c.d ++ c.e ∧ c.pair .hl = c.h ++ c.l) ∧
  (∀ r, ∃ p, (r = pairHi p ∨ r = pairLo p) ∧ ∀ q, (r = pairHi q ∨ r = pairLo q) → q = p) ∧
  (∀ p, reg8Number (pairHi p) = 2 * pairNumber p ∧ reg8Number (pairLo p) = 2 * pairNumber p + 1 ∧
    pairLowMask p = if p = .af then 0xF0#8 else 0xFF#8) ∧
  (∀ c : Cells, c.flag .zf = c.f.getLsbD 7 ∧ c.flag .nf = c.f.getLsbD 6 ∧ c.flag .hf = c.f.getLsbD 5 ∧
    c.flag .cf = c.f.getLsbD 4)

/-- Flags are independent (42_flag_access.md R112; 10_state.md R24). -/
def Obligations.FlagsAreIndependent : Prop :=
  (∀ f g b s t u u', f ≠ g → exec (.setFlag f b) s = .next t → exec (.getFlag g) s = .next u →
    exec (.getFlag g) t = .next u' → u'.result = u.result) ∧
  (∀ f b s t u, exec (.setFlag f b) s = .next t → exec (.getFlag f) t = .next u → u.result = some (.bit b)) ∧
  (∀ f b s t, exec (.setFlag f b) s = .next t → { t.cells with f := s.cells.f } = s.cells ∧
    ∀ n, n ≠ 7 - flagNumber f → t.cells.f.getLsbD n = s.cells.f.getLsbD n)

/-- What writes and what reads the flags (10_state.md R23). -/
def Obligations.FlagsAreWrittenOnlyByFourCommands : Prop :=
  (∀ i s t, exec i s = .next t → (∀ f b, i ≠ .setFlag f b) → (∀ v, i ≠ .setPair .af v) → (∀ v, i ≠ .setR8 .f v) →
    (∀ v, i ≠ .powerUp v) → t.cells.f = s.cells.f) ∧
  (∀ f b g s t, exec (.setFlag f b) s = .next t → t.cells.flag g = if g = f then b else s.cells.flag g) ∧
  (∀ v g s t, (exec (.setPair .af v) s = .next t ∨ exec (.setR8 .f v) s = .next t) →
    t.cells.flag g = v.getLsbD (7 - flagNumber g)) ∧
  (∀ v g s t, exec (.powerUp v) s = .next t → t.cells.flag g = decide (g ≠ .nf)) ∧
  (∀ g s t, exec (.getFlag g) s = .next t → t.result = some (.bit (s.cells.flag g))) ∧
  (∀ g s t, (exec (.getPair .af) s = .next t ∨ exec (.getR8 .f) s = .next t) →
    t.resp.getLsbD (7 - flagNumber g) = s.cells.flag g)

/-- `set_flag` never writes the low nibble of F (42_flag_access.md R114). -/
def Obligations.SetFlagKeepsTheLowNibbleOfF : Prop :=
  (∀ f b s t, exec (.setFlag f b) s = .next t → t.cells.f &&& 0x0F#8 = s.cells.f &&& 0x0F#8) ∧
  (∀ f b s t, s.Inv → exec (.setFlag f b) s = .next t → t.Inv) ∧
  (∀ i s t, exec i s = .next t → (∀ f b, i ≠ .setFlag f b) → t.cells.f = s.cells.f ∨ t.cells.f = t.cells.f &&& 0xF0#8)

/-- The round-trip laws of the pairs (41_pair_access.md R104). -/
def Obligations.PairsRoundTrip : Prop :=
  (∀ p x s t u, p ≠ .af → exec (.setPair p x) s = .next t → exec (.getPair p) t = .next u →
    u.result = some (.word x)) ∧
  (∀ x s t u, exec (.setPair .af x) s = .next t → exec (.getPair .af) t = .next u →
    u.result = some (.word (x &&& 0xFFF0#16))) ∧
  (∀ x s t u, s.Inv → exec (.getPair .af) s = .next t → t.result = some (.word x) →
    exec (.setPair .af x) t = .next u → u.cells = s.cells)

/-- BC, DE and HL keep all eight low bits, and AF does not (10_state.md R25; 41_pair_access.md R105). -/
def Obligations.LowByteMasksStayDifferent : Prop :=
  (∀ p v s t, p ≠ .af → exec (.setPair p v) s = .next t → t.cells.read8 (pairLo p) = v.extractLsb' 0 8) ∧
  (∀ p v s t, p ≠ .af → exec (.setR8 (pairLo p) v) s = .next t → t.cells.read8 (pairLo p) = v.extractLsb' 0 8) ∧
  (∀ v s t, exec (.setPair .af v) s = .next t → t.cells.f = v.extractLsb' 0 8 &&& 0xF0#8) ∧
  (∀ p, p ≠ .af → ∃ v, ∀ s t t', exec (.setPair .af v) s = .next t → exec (.setPair p v) s = .next t' →
    t.cells.f ≠ t'.cells.read8 (pairLo p))

/-- The hazard of value of AF (70_reset_and_hazards.md R161). -/
def Obligations.AfDoesNotRoundTrip : Prop :=
  (∀ x s t u, exec (.setPair .af x) s = .next t → exec (.getPair .af) t = .next u → u.resp = x &&& 0xFFF0#16) ∧
  (∀ x s t u, exec (.setR8 .f x) s = .next t → exec (.getR8 .f) t = .next u →
    u.resp = (x.extractLsb' 0 8 &&& 0xF0#8).setWidth 16) ∧
  (∀ x y s t t', x.extractLsb' 4 12 = y.extractLsb' 4 12 → exec (.setPair .af x) s = .next t →
    exec (.setPair .af y) s = .next t' → t = t') ∧
  (∀ p x s t u, p ≠ .af → exec (.setPair p x) s = .next t → exec (.getPair p) t = .next u → u.resp = x)

/-- PC and SP steer neither the port nor any other cell: whatever they hold, a step leaves the same edges to come and the
same eight 8-bit cells (10_state.md R13, R14; 20_memory.md R53; 43_system.md R124). Results are not spoken of here:
`get_r16` returns the cell it names, and which cells a result depends on is `CommandsReadAndWriteOnlyTheirCells`. -/
def Obligations.PcAndSpSteerNothing : Prop :=
  (∀ i s t, exec i s = .next t → ((∀ v, i ≠ .setR16 .pc v) → (∀ v, i ≠ .powerUp v) → t.cells.pc = s.cells.pc) ∧
    ((∀ v, i ≠ .setR16 .sp v) → (∀ v, i ≠ .powerUp v) → t.cells.sp = s.cells.sp)) ∧
  (∀ (s : State) (x y : Word) (t : State), step s = .next t → ∃ u, step { s with cells := { s.cells with pc := x, sp := y } } = .next u ∧
    u.port = t.port ∧ { u.cells with pc := t.cells.pc, sp := t.cells.sp } = t.cells)

/-! ## The step -/

/-- A step at a command edge runs the decoded command on the state without that edge (30_encoding.md R60, R72), and so
does a step after a word is presented in front of the port (log 2). -/
def Obligations.StepRunsTheDecodedCommand : Prop :=
  (∀ (s : State) (e : Edge) (rest : List Edge) (i : Instr), s.port = e :: rest → e.reset = false → e.cmdValid = true →
    decode e.cmd = .ok i → step s = exec i { s with port := rest }) ∧
  (∀ (s : State) (w : CmdWord) (i : Instr), decode w = .ok i → step (s.withFetchWord 24 w.toNat) = exec i s)

/-- A reserved word is refused by the name of its reason: no next state, no fault (60_exceptions.md R134). -/
def Obligations.ReservedWordIsRefused : Prop :=
  ∀ (s : State) (e : Edge) (rest : List Edge), s.port = e :: rest → e.reset = false → e.cmdValid = true → legalWord e.cmd = false →
    ∃ why, decode e.cmd = .error why ∧ step s = .refused (.reservedWord why)

/-- RESET wins over a command at the same edge, and is power-up of the strapped variant (60_exceptions.md R136;
70_reset_and_hazards.md R150, R153). -/
def Obligations.ResetWinsAndPowersUp : Prop :=
  (∀ (s : State) (e : Edge) (rest : List Edge), s.port = e :: rest → e.reset = true →
    step s = exec (.powerUp (variantOf e.variant)) { s with port := rest } ∧
    step s = .next { cells := powerUpRow (powerUpA (variantOf e.variant)), result := none, port := rest }) ∧
  (∀ (s : State) (x : Bool) (w : CmdWord) (rest : List Edge) (e : Edge), e.reset = true → step { s with port := e :: rest } =
    step { s with port := { e with cmdValid := x, cmd := w } :: rest }) ∧
  (∀ (s t : State) (e : Edge) (rest : List Edge), e.reset = true → step { s with port := e :: rest } = step { t with port := e :: rest })

/-- An edge with RESET = 0 and CMD_VALID = 0 changes no cell, and VARIANT is read only when RESET is 1 (30_encoding.md R60).
That such an edge is a step of the model and shows RESP_VALID = 0, and that an empty port is idle, are the model's
choices (logs 1 and 10). -/
def Obligations.IdleEdgesChangeNoCell : Prop :=
  (∀ (s : State) (e : Edge) (rest : List Edge), s.port = e :: rest → e.reset = false → e.cmdValid = false →
    step s = .next { s with result := none, port := rest }) ∧
  (∀ s : State, s.port = [] → step s = .next { s with result := none }) ∧
  (∀ (s : State) (e : Edge) (v : BitVec 2) (rest : List Edge), e.reset = false →
    step { s with port := { e with variant := v } :: rest } = step { s with port := e :: rest })

/-! ## Reset -/

/-- The values after power-up, per variant, of cells and views (10_state.md R33, R34; 70_reset_and_hazards.md R151). -/
def Obligations.PowerUpStateHoldsTheTable : Prop :=
  (∀ v, (State.powerUp v).cells = powerUpRow (powerUpA v) ∧ Config.current.powerUpTable v = powerUpRow (powerUpA v)) ∧
  (∀ v, (State.powerUp v).cells.pair .af = powerUpA v ++ 0xB0#8 ∧ (State.powerUp v).cells.pair .bc = 0x0013#16 ∧
    (State.powerUp v).cells.pair .de = 0x00D8#16 ∧ (State.powerUp v).cells.pair .hl = 0x014D#16 ∧
    (State.powerUp v).cells.flag .zf = true ∧ (State.powerUp v).cells.flag .nf = false ∧
    (State.powerUp v).cells.flag .hf = true ∧ (State.powerUp v).cells.flag .cf = true) ∧
  (∀ v, (State.powerUp v).respValid = false ∧ (State.powerUp v).resp = 0x0000#16) ∧
  (∀ (v : Variant) (s t : State), step { s with port := Edge.resetAs v :: s.port } = .next t →
    t.cells = (State.powerUp v).cells ∧ t.respValid = false ∧ t.resp = 0x0000#16) ∧
  (State.powerUp .gb).cells = (State.powerUp .sgb).cells ∧
  tableLegal Config.current.powerUpTable = true ∧ (∀ v, (Config.current.powerUpTable v).f &&& 0x0F#8 = 0#8)

/-- The machine's reset state is a power-up state and meets the invariant. That it is the one of GB is the model's choice
(log 3; the spec leaves the variant a parameter, 92_eei_decisions.md O1). -/
def Obligations.ResetStateMeetsTheInvariant : Prop :=
  State.reset = State.powerUp .gb ∧ State.reset.Inv ∧ ∀ v, (State.powerUp v).Inv

/-- For any table that meets its one constraint, and only for those, power-up establishes the invariant (10_state.md R33;
92_eei_decisions.md D18). -/
def Obligations.AnyLegalTableGivesTheInvariant : Prop :=
  ∀ t : PowerUpTable, tableLegal t = true ↔ ∀ v, (powerUpCells t v).Inv

/-! ## Runs -/

/-- Bits 3 to 0 of F are zero at the end of every step (10_state.md R20): every command and every step keeps it. -/
def Obligations.EveryStepKeepsTheLowNibbleOfFZero : Prop :=
  (∀ i s t, s.Inv → exec i s = .next t → t.Inv) ∧ (∀ s t, s.Inv → step s = .next t → t.Inv)

/-- The invariant holds along every run that starts powered up, with anything at its port (10_state.md R20). -/
def Obligations.EveryRunKeepsTheLowNibbleOfFZero : Prop :=
  (∀ k s t, s.Inv → Host.Core.run Sys2Proof.core k s = .next t → t.Inv) ∧
  (∀ k v port t, Host.Core.run Sys2Proof.core k { State.powerUp v with port := port } = .next t →
    t.cells.f &&& 0x0F#8 = 0#8)

/-- From ANY contents of the cells, a run whose first step is a reset or a `power_up` command meets the invariant from that
step on (70_reset_and_hazards.md R155, R156). -/
def Obligations.PoweringUpEstablishesTheInvariant : Prop :=
  ∀ k s t, startsWithPowerUp s.port = true → (∃ e ∈ s.port.take k, e.presented ≠ .idle) →
    Host.Core.run Sys2Proof.core k s = .next t → t.Inv

/-- The state after a prefix of the commands at the port is the fold of the command rules over that prefix
(20_memory.md R50; 60_exceptions.md R137). That the coming commands stand in a list at the port is log 1. -/
def Obligations.RunIsTheFoldOfTheCommands : Prop :=
  ∀ (is js : List Instr) (s : State), Host.Core.run Sys2Proof.core is.length (s.present (is ++ js)) = execSeq is (s.present js)

/-- There is no hidden state (10_state.md R29, R30): two machines with equal cells and equal ports go the same way, whatever
they returned before. -/
def Obligations.BehaviourIsAFunctionOfCellsAndPort : Prop :=
  ∀ k s t, s.cells = t.cells → s.port = t.port →
    Host.Core.run Sys2Proof.core (k + 1) s = Host.Core.run Sys2Proof.core (k + 1) t

/-- The machine never stops exactly when the port presents no reserved word (60_exceptions.md R130;
70_reset_and_hazards.md R158, R164). Its steps include those past the end of the port: that the port is then idle is the
model's choice (log 1), and so is that an idle edge is a step (log 10). -/
def Obligations.OnlyReservedWordsStopARun : Prop := ∀ s, NeverStops s ↔ portConforms s.port = true

/-- `snapshot` changes nothing and returns the ten cells; `restore` with its results, given to any instance in any state,
leaves exactly those cells (43_system.md R122, R123). -/
def Obligations.SnapshotAndRestoreDuplicateAnInstance : Prop :=
  (∀ s t, execSeq Pseudo.snapshot.expand s = .next t → t.cells = s.cells) ∧
  (∀ s, resultsOf Pseudo.snapshot.expand s = [some (.byte s.cells.a), some (.byte s.cells.f), some (.byte s.cells.b),
    some (.byte s.cells.c), some (.byte s.cells.d), some (.byte s.cells.e), some (.byte s.cells.h),
    some (.byte s.cells.l), some (.word s.cells.sp), some (.word s.cells.pc)]) ∧
  (∀ s, s.Inv → ∃ p, Pseudo.restoreOf (resultsOf Pseudo.snapshot.expand s) = some p ∧
    ∀ y, ∃ t, execSeq p.expand y = .next t ∧ t.cells = s.cells)

/-! ## Instances -/

/-- A command given to one instance changes nothing of another (60_exceptions.md R142). -/
def Obligations.InstancesShareNothing : Prop :=
  (∀ (n : Nat) (y z : System n) (k j : Fin n), y.step k = .next z → j ≠ k → z.inst[j] = y.inst[j]) ∧
  (∀ (n : Nat) (y : System n) (k : Fin n) (t : State), step y.inst[k] = .next t →
    ∃ z, y.step k = .next z ∧ z.inst[k] = t) ∧
  (∀ (n : Nat) (y z : System n) (k : Fin n), y.inst[k] = z.inst[k] →
    (∀ y', y.step k = .next y' → ∃ z', z.step k = .next z' ∧ z'.inst[k] = y'.inst[k]))

/-- A duplicate and its source are fully independent (10_state.md R30; 95_test_vectors.md V8). R30 speaks of the ten cell
values; that the copy is the whole State, the edges to come and the last result included, is the model's choice (log 13). -/
def Obligations.DuplicatesAreIndependent : Prop :=
  ∀ (n : Nat) (y z : System n) (src dst : Fin n), src ≠ dst →
    (y.duplicate src dst).inst[dst] = y.inst[src] ∧
    ((y.duplicate src dst).step dst = .next z → z.inst[src] = y.inst[src]) ∧
    ((y.duplicate src dst).step src = .next z → z.inst[dst] = y.inst[src])

/-! ## Text: numbers -/

/-- Numbers are decimal or `0x` hexadecimal (30_encoding.md R76): every number is read back from its decimal digits and from
its hexadecimal digits after `0x`, in either case and behind any leading zero (that both are accepted is log 12); a number
operand is its value or the error; the empty text and `0x` alone are no numbers. -/
def Obligations.NumbersAreReadInDecimalAndHexadecimal : Prop :=
  (∀ n, numberValue (Nat.toDigits 10 n) = some n) ∧
  (∀ n, numberValue ('0' :: 'x' :: Nat.toDigits 16 n) = some n) ∧
  (∀ n, numberValue ('0' :: 'x' :: (Nat.toDigits 16 n).map Char.toUpper) = some n) ∧
  (∀ n, numberValue ('0' :: Nat.toDigits 10 n) = some n ∧
    numberValue ('0' :: 'x' :: '0' :: Nat.toDigits 16 n) = some n) ∧
  (∀ n, parseNumber (Nat.toDigits 10 n) = if n < 65536 then .ok (BitVec.ofNat 16 n) else .error .numberTooLarge) ∧
  (∀ n, parseNumber ('0' :: 'x' :: Nat.toDigits 16 n) =
    if n < 65536 then .ok (BitVec.ofNat 16 n) else .error .numberTooLarge) ∧
  numberValue [] = none ∧ numberValue ['0', 'x'] = none
end

