-- ==== Sys2Proof/Laws/Decode.lean ====
section
/-! SUPPORT. The small laws of the command word: its three fields (30_encoding.md R61) and the selector codes (R63 to R67). -/

namespace Sys2Proof

@[simp] theorem opOf_packWord (op sel : BitVec 4) (data : Word) : opOf (packWord op sel data) = op := by
  apply BitVec.eq_of_getLsbD_eq
  intro i hi
  simp only [opOf, packWord, BitVec.getLsbD_extractLsb', BitVec.getLsbD_append]
  simp [hi, show ¬ 20 + i < 16 by omega, show ¬ 20 + i - 16 < 4 by omega, show 20 + i - 16 - 4 = i by omega]

@[simp] theorem selOf_packWord (op sel : BitVec 4) (data : Word) : selOf (packWord op sel data) = sel := by
  apply BitVec.eq_of_getLsbD_eq
  intro i hi
  simp only [selOf, packWord, BitVec.getLsbD_extractLsb', BitVec.getLsbD_append]
  simp [hi, show ¬ 16 + i < 16 by omega]

@[simp] theorem dataOf_packWord (op sel : BitVec 4) (data : Word) : dataOf (packWord op sel data) = data := by
  apply BitVec.eq_of_getLsbD_eq
  intro i hi
  simp only [dataOf, packWord, BitVec.getLsbD_extractLsb', BitVec.getLsbD_append]
  simp [hi]

/-- A word is the concatenation of its three fields. -/
theorem packWord_fields (w : CmdWord) : packWord (opOf w) (selOf w) (dataOf w) = w := by
  apply BitVec.eq_of_getLsbD_eq
  intro i hi
  simp only [opOf, selOf, dataOf, packWord, BitVec.getLsbD_extractLsb', BitVec.getLsbD_append]
  by_cases h : i < 16
  · simp [h]
  · by_cases h' : i - 16 < 4
    · simp [h, h', show 16 + (i - 16) = i by omega]
    · simp [h, h', show 20 + (i - 16 - 4) = i by omega, show i - 16 - 4 < 4 by omega]

/-- Two words with equal fields are equal. -/
theorem word_eq_of_fields {w x : CmdWord} (h₁ : opOf w = opOf x) (h₂ : selOf w = selOf x) (h₃ : dataOf w = dataOf x) :
    w = x := by
  rw [← packWord_fields w, ← packWord_fields x, h₁, h₂, h₃]

@[simp] theorem opOf_encode (i : Instr) : opOf (encode i) = i.op := opOf_packWord ..
@[simp] theorem selOf_encode (i : Instr) : selOf (encode i) = i.sel := selOf_packWord ..
@[simp] theorem dataOf_encode (i : Instr) : dataOf (encode i) = i.data := dataOf_packWord ..

@[simp] theorem decode_packWord (op sel : BitVec 4) (data : Word) :
    decode (packWord op sel data) = decodeFields op sel data := by
  simp [decode]

@[simp] theorem cell8_code (r : Reg8) : cell8 r.code = r := by cases r <;> rfl
@[simp] theorem cell16_code (r : Reg16) : cell16 r.code = r := by cases r <;> rfl
@[simp] theorem pairOf_code (p : Pair) : pairOf p.code = p := by cases p <;> rfl
@[simp] theorem flagOf_code (f : Flag) : flagOf f.code = f := by cases f <;> rfl
@[simp] theorem variantOf_code (v : Variant) : variantOf v.code = v := by cases v <;> rfl

@[simp] theorem code_cell8 : ∀ s : BitVec 3, (cell8 s).code = s := by decide
@[simp] theorem code_cell16 : ∀ s : BitVec 1, (cell16 s).code = s := by decide
@[simp] theorem code_pairOf : ∀ s : BitVec 2, (pairOf s).code = s := by decide
@[simp] theorem code_flagOf : ∀ s : BitVec 2, (flagOf s).code = s := by decide
@[simp] theorem code_variantOf : ∀ s : BitVec 2, (variantOf s).code = s := by decide

/-- A command comes out of `unlessReserved` exactly when no must-be-zero bit is 1. -/
@[simp] theorem unlessReserved_ok {sb db : Bool} {i j : Instr} :
    unlessReserved sb db i = .ok j ↔ sb = false ∧ db = false ∧ i = j := by
  cases sb <;> cases db <;> simp [unlessReserved]

/-- The reason `unlessReserved` gives: SEL before DATA. -/
@[simp] theorem unlessReserved_error {sb db : Bool} {i : Instr} {why : Reserved} :
    unlessReserved sb db i = .error why ↔
      (sb = true ∧ why = .selNotZero) ∨ (sb = false ∧ db = true ∧ why = .dataNotZero) := by
  cases sb <;> cases db <;> simp [unlessReserved, eq_comm]

end Sys2Proof
end

