-- ==== Sys2Proof/Laws/Operands.lean ====
section
/-! SUPPORT. The laws of masks, byte selection and flags (20_memory.md R57), each about the model's own operations. -/

namespace Sys2Proof.Machine

/-- `{v >> 8, v & 0xFF} = v` (R57 a). -/
theorem highByte_append_lowByte (v : Word) : highByte v ++ lowByte v = v := by
  apply BitVec.eq_of_getLsbD_eq
  intro i hi
  simp only [highByte, lowByte, BitVec.getLsbD_append, BitVec.getLsbD_extractLsb']
  by_cases h : i < 8
  · simp [h]
  · simp [h, show i - 8 < 8 by omega, show 8 + (i - 8) = i by omega]

@[simp] theorem highByte_append (x y : Byte) : highByte (x ++ y) = x := by
  apply BitVec.eq_of_getLsbD_eq
  intro i hi
  simp only [highByte, BitVec.getLsbD_append, BitVec.getLsbD_extractLsb']
  simp [hi]

@[simp] theorem lowByte_append (x y : Byte) : lowByte (x ++ y) = y := by
  apply BitVec.eq_of_getLsbD_eq
  intro i hi
  simp only [lowByte, BitVec.getLsbD_append, BitVec.getLsbD_extractLsb']
  simp [hi]

/-- A byte is unchanged by the mask 0xFF. -/
@[simp] theorem and_ff (x : Byte) : x &&& 0xFF#8 = x := BitVec.and_allOnes

/-- The mask 0xF0 leaves a zero low nibble. -/
@[simp] theorem and_f0_and_0f (x : Byte) : x &&& 0xF0#8 &&& 0x0F#8 = 0#8 := by
  rw [BitVec.and_assoc]; simp

/-- A byte whose low nibble is zero is unchanged by the mask 0xF0. -/
theorem and_f0_of_lowNibble_zero : ∀ x : Byte, x &&& 0x0F#8 = 0#8 → x &&& 0xF0#8 = x := by decide

/-- The flag just written reads as written (R57 c). -/
@[simp] theorem flagTest_flagWrite_same (f : Flag) (b : Bool) : ∀ x : Byte, flagTest (flagWrite x f b) f = b := by
  cases f <;> cases b <;> decide

/-- A flag write leaves every other flag alone (R57 d). -/
theorem flagTest_flagWrite_of_ne {f g : Flag} (h : g ≠ f) (b : Bool) :
    ∀ x : Byte, flagTest (flagWrite x f b) g = flagTest x g := by
  cases f <;> cases g <;> first | exact absurd rfl h | (cases b <;> decide)

/-- A flag write leaves the low nibble alone (R57 e). -/
@[simp] theorem lowNibble_flagWrite (f : Flag) (b : Bool) : ∀ x : Byte, flagWrite x f b &&& 0x0F#8 = x &&& 0x0F#8 := by
  cases f <;> cases b <;> decide

/-- Writing the same flag twice is writing it once. -/
@[simp] theorem flagWrite_idem (f : Flag) (b : Bool) : ∀ x : Byte, flagWrite (flagWrite x f b) f b = flagWrite x f b := by
  cases f <;> cases b <;> decide

/-- The two cells of a pair are different. -/
@[simp] theorem pairHi_ne_pairLo (p : Pair) : pairHi p ≠ pairLo p := by cases p <;> decide
@[simp] theorem pairLo_ne_pairHi (p : Pair) : pairLo p ≠ pairHi p := by cases p <;> decide

/-- The low cell of a pair is F only for AF. -/
@[simp] theorem pairLo_eq_f {p : Pair} : pairLo p = .f ↔ p = .af := by cases p <;> decide
@[simp] theorem pairHi_ne_f (p : Pair) : pairHi p ≠ .f := by cases p <;> decide

/-- The byte mask and the pair mask of one cell are the same mask. -/
theorem byteWriteMask_pairLo (p : Pair) : byteWriteMask (pairLo p) = pairLowMask p := by cases p <;> rfl

end Sys2Proof.Machine
end

