-- ==== Sys2Proof/Laws/State.lean ====
section
/-! SUPPORT. One lemma per field per update: of the two ways a command ends, of the raw cell writes, and of the
edges at the port. All hold by computation, so that later proofs unfold no record update. -/

namespace Sys2Proof.Machine

section writes

variable (c : Cells) (x : Byte) (y : Word)

@[simp] theorem Cells.write8_a : c.write8 .a x = { c with a := x } := rfl
@[simp] theorem Cells.write8_f : c.write8 .f x = { c with f := x } := rfl
@[simp] theorem Cells.write8_b : c.write8 .b x = { c with b := x } := rfl
@[simp] theorem Cells.write8_c : c.write8 .c x = { c with c := x } := rfl
@[simp] theorem Cells.write8_d : c.write8 .d x = { c with d := x } := rfl
@[simp] theorem Cells.write8_e : c.write8 .e x = { c with e := x } := rfl
@[simp] theorem Cells.write8_h : c.write8 .h x = { c with h := x } := rfl
@[simp] theorem Cells.write8_l : c.write8 .l x = { c with l := x } := rfl
@[simp] theorem Cells.write16_sp : c.write16 .sp y = { c with sp := y } := rfl
@[simp] theorem Cells.write16_pc : c.write16 .pc y = { c with pc := y } := rfl

@[simp] theorem Cells.sp_write8 (r : Reg8) : (c.write8 r x).sp = c.sp := by cases r <;> rfl
@[simp] theorem Cells.pc_write8 (r : Reg8) : (c.write8 r x).pc = c.pc := by cases r <;> rfl
@[simp] theorem Cells.read16_write8 (r : Reg8) (q : Reg16) : (c.write8 r x).read16 q = c.read16 q := by
  cases r <;> cases q <;> rfl
@[simp] theorem Cells.read8_write16 (r : Reg8) (q : Reg16) : (c.write16 q y).read8 r = c.read8 r := by
  cases r <;> cases q <;> rfl
@[simp] theorem Cells.f_write16 (q : Reg16) : (c.write16 q y).f = c.f := by cases q <;> rfl

/-- A read after a raw write to the same cell gives the value written. -/
@[simp] theorem Cells.read8_write8_same (r : Reg8) : (c.write8 r x).read8 r = x := by cases r <;> rfl

/-- A raw write leaves every other 8-bit cell alone. -/
theorem Cells.read8_write8_of_ne {r q : Reg8} (h : q ≠ r) : (c.write8 r x).read8 q = c.read8 q := by
  cases r <;> cases q <;> first | rfl | exact absurd rfl h

/-- A read after a write to the same 16-bit cell gives the value written. -/
@[simp] theorem Cells.read16_write16_same (q : Reg16) : (c.write16 q y).read16 q = y := by cases q <;> rfl

/-- A write leaves the other 16-bit cell alone. -/
theorem Cells.read16_write16_of_ne {r q : Reg16} (h : q ≠ r) : (c.write16 r y).read16 q = c.read16 q := by
  cases r <;> cases q <;> first | rfl | exact absurd rfl h

/-- Cells agree when every register read agrees. -/
theorem Cells.ext_reads {c d : Cells} (h8 : ∀ r, c.read8 r = d.read8 r) (h16 : ∀ r, c.read16 r = d.read16 r) : c = d := by
  apply Cells.ext
  · exact h8 .a
  · exact h8 .f
  · exact h8 .b
  · exact h8 .c
  · exact h8 .d
  · exact h8 .e
  · exact h8 .h
  · exact h8 .l
  · exact h16 .sp
  · exact h16 .pc

end writes

section edges

variable (s : State) (e : Edge) (w : CmdWord) (v : Variant)

@[simp] theorem Edge.presented_command : (Edge.command w).presented = .command w := rfl
@[simp] theorem Edge.presented_resetAs : (Edge.resetAs v).presented = .reset v := by cases v <;> rfl
@[simp] theorem Edge.presented_idle : Edge.idle.presented = .idle := rfl

@[simp] theorem takeEdge_nil (h : s.port = []) : takeEdge s = (.idle, s) := by simp [takeEdge, h]
theorem takeEdge_cons {rest : List Edge} (h : s.port = e :: rest) :
    takeEdge s = (e.presented, { s with port := rest }) := by simp [takeEdge, h]

@[simp] theorem cells_takeEdge : (takeEdge s).2.cells = s.cells := by unfold takeEdge; split <;> rfl
@[simp] theorem result_takeEdge : (takeEdge s).2.result = s.result := by unfold takeEdge; split <;> rfl
@[simp] theorem port_takeEdge : (takeEdge s).2.port = s.port.tail := by
  unfold takeEdge
  split
  · rename_i h; simp [h]
  · rename_i h; simp [h]

end edges

section present

variable (s : State) (i : Instr) (is : List Instr)

@[simp] theorem State.present_nil : s.present [] = s := rfl
@[simp] theorem State.cells_present : (s.present is).cells = s.cells := rfl
@[simp] theorem State.result_present : (s.present is).result = s.result := rfl
@[simp] theorem State.present_cons : s.present (i :: is) =
    { s with port := Edge.command (encode i) :: (s.present is).port } := rfl

end present

end Sys2Proof.Machine
end

