-- ==== Sys2Proof/Laws/Ops.lean ====
section
/-! SUPPORT. One lemma per shared operation that says what it writes and what it leaves, and that it keeps the
invariant of F (10_state.md R20). -/

namespace Sys2Proof.Machine

section cells

variable (c : Cells) (v : Word)

/-! ## `setByte` -/

@[simp] theorem Cells.read8_setByte_same (r : Reg8) : (c.setByte r v).read8 r = lowByte v &&& byteWriteMask r := by
  simp [Cells.setByte]
theorem Cells.read8_setByte_of_ne {r q : Reg8} (h : q ≠ r) : (c.setByte r v).read8 q = c.read8 q :=
  Cells.read8_write8_of_ne _ _ h
@[simp] theorem Cells.read16_setByte (r : Reg8) (q : Reg16) : (c.setByte r v).read16 q = c.read16 q := by
  simp [Cells.setByte]

/-! ## `setPair` -/

@[simp] theorem Cells.read8_setPair_hi (p : Pair) : (c.setPair p v).read8 (pairHi p) = highByte v := by
  rw [Cells.setPair, Cells.read8_write8_of_ne _ _ (pairHi_ne_pairLo p), Cells.read8_write8_same]
@[simp] theorem Cells.read8_setPair_lo (p : Pair) : (c.setPair p v).read8 (pairLo p) = lowByte v &&& pairLowMask p := by
  simp [Cells.setPair]
theorem Cells.read8_setPair_of_ne {p : Pair} {q : Reg8} (h : q ≠ pairHi p) (h' : q ≠ pairLo p) :
    (c.setPair p v).read8 q = c.read8 q := by
  rw [Cells.setPair, Cells.read8_write8_of_ne _ _ h', Cells.read8_write8_of_ne _ _ h]
@[simp] theorem Cells.read16_setPair (p : Pair) (q : Reg16) : (c.setPair p v).read16 q = c.read16 q := by
  simp [Cells.setPair]

/-! ## `setFlag` -/

@[simp] theorem Cells.f_setFlag (f : Flag) (b : Bool) : (c.setFlag f b).f = flagWrite c.f f b := rfl
theorem Cells.read8_setFlag_of_ne {q : Reg8} (h : q ≠ .f) (f : Flag) (b : Bool) :
    (c.setFlag f b).read8 q = c.read8 q := Cells.read8_write8_of_ne _ _ h
@[simp] theorem Cells.read16_setFlag (f : Flag) (b : Bool) (q : Reg16) : (c.setFlag f b).read16 q = c.read16 q :=
  Cells.read16_write8 ..

end cells

/-! ## The invariant of F -/

theorem Cells.inv_iff_read8 (c : Cells) : c.Inv ↔ c.read8 .f &&& 0x0F#8 = 0#8 := Iff.rfl

theorem Cells.inv_setByte {c : Cells} (h : c.Inv) (r : Reg8) (v : Word) : (c.setByte r v).Inv := by
  cases r <;> first | exact h | exact and_f0_and_0f _

theorem Cells.inv_write16 {c : Cells} (h : c.Inv) (r : Reg16) (v : Word) : (c.write16 r v).Inv := by
  cases r <;> exact h

theorem Cells.inv_setPair {c : Cells} (h : c.Inv) (p : Pair) (v : Word) : (c.setPair p v).Inv := by
  cases p <;> first | exact h | exact and_f0_and_0f _

theorem Cells.inv_setFlag {c : Cells} (h : c.Inv) (f : Flag) (b : Bool) : (c.setFlag f b).Inv := by
  simpa [Cells.Inv] using h

theorem Cells.inv_powerUpCells {t : PowerUpTable} (h : tableLegal t = true) (v : Variant) : (powerUpCells t v).Inv := by
  simp [tableLegal] at h
  cases v <;> simp [Cells.Inv, powerUpCells, h]

/-- The configured table meets its one constraint (10_state.md R33). -/
theorem tableLegal_current : tableLegal Config.current.powerUpTable = true := by decide

/-! ## How a command ends -/

@[simp] theorem answer_next {r : Result} {s t : State} : answer r s = .next t ↔ t = { s with result := some r } := by
  simp [answer, eq_comm]

@[simp] theorem finish_next {c : Cells} {s t : State} :
    finish c s = .next t ↔ t = { s with cells := c, result := none } := by
  simp [finish, eq_comm]

end Sys2Proof.Machine
end

