-- ==== Sys2Proof/Laws/Exec.lean ====
section
/-! SUPPORT. What one command and one step can do, said once: the cells and the result after a command, and the cases
of a step (20_memory.md R45, R50). Later proofs cite these and unfold neither `exec` nor `step`. -/

namespace Sys2Proof.Machine

/-- The cells after a command. -/
def cellsAfter (i : Instr) (c : Cells) : Cells :=
  match i with
  | .nop => c
  | .getR8 _ => c
  | .setR8 r v => c.setByte r v
  | .getR16 _ => c
  | .setR16 r v => c.write16 r v
  | .getPair _ => c
  | .setPair p v => c.setPair p v
  | .getFlag _ => c
  | .setFlag f b => c.setFlag f b
  | .powerUp v => powerUpCells Config.current.powerUpTable v

/-- The result of a command. -/
def resultOf (i : Instr) (c : Cells) : Option Result :=
  match i with
  | .nop => none
  | .getR8 r => some (.byte (c.read8 r))
  | .setR8 _ _ => none
  | .getR16 r => some (.word (c.read16 r))
  | .setR16 _ _ => none
  | .getPair p => some (.word (c.pair p))
  | .setPair _ _ => none
  | .getFlag f => some (.bit (c.flag f))
  | .setFlag _ _ => none
  | .powerUp _ => none

/-- Every command has exactly this next state. -/
theorem exec_eq (i : Instr) (s : State) :
    exec i s = .next { s with cells := cellsAfter i s.cells, result := resultOf i s.cells } := by
  cases i <;> rfl

/-- The next state of a command, taken apart. -/
theorem exec_next {i : Instr} {s t : State} :
    exec i s = .next t ↔ t = { s with cells := cellsAfter i s.cells, result := resultOf i s.cells } := by
  rw [exec_eq]; simp [eq_comm]

/-- A command keeps the invariant of F. -/
theorem Cells.inv_cellsAfter {c : Cells} (h : c.Inv) (i : Instr) : (cellsAfter i c).Inv := by
  cases i with
  | nop => exact h
  | getR8 _ => exact h
  | setR8 r v => exact Cells.inv_setByte h r v
  | getR16 _ => exact h
  | setR16 r v => exact Cells.inv_write16 h r v
  | getPair _ => exact h
  | setPair p v => exact Cells.inv_setPair h p v
  | getFlag _ => exact h
  | setFlag f b => exact Cells.inv_setFlag h f b
  | powerUp v => exact Cells.inv_powerUpCells tableLegal_current v

/-- The cases of a step: nothing presented, a reset, a command, a reserved word. -/
theorem step_cases (s : State) :
    ((takeEdge s).1 = .idle ∧ step s = .next { s with result := none, port := s.port.tail }) ∨
    (∃ v, (takeEdge s).1 = .reset v ∧
      step s = .next { cells := Config.current.powerUpTable v, result := none, port := s.port.tail }) ∨
    (∃ w i, (takeEdge s).1 = .command w ∧ decode w = .ok i ∧ step s = exec i { s with port := s.port.tail }) ∨
    (∃ w why, (takeEdge s).1 = .command w ∧ decode w = .error why ∧ step s = .refused (.reservedWord why)) := by
  have key : ∀ p t, takeEdge s = (p, t) → t = { s with port := s.port.tail } := by
    intro p t h
    have h2 : t = (takeEdge s).2 := by rw [h]
    subst h2
    cases s with
    | mk c r port => cases port <;> rfl
  rcases h : takeEdge s with ⟨p, t⟩
  obtain rfl := key p t h
  cases p with
  | idle => exact .inl ⟨rfl, by simp [step, h, finish]⟩
  | reset v => exact .inr (.inl ⟨v, rfl, by simp [step, h, execPowerUp, finish, powerUpCells]⟩)
  | command w =>
    cases hd : decode w with
    | ok i => exact .inr (.inr (.inl ⟨w, i, rfl, hd, by simp [step, h, hd]⟩))
    | error why => exact .inr (.inr (.inr ⟨w, why, rfl, hd, by simp [step, h, hd]⟩))

/-- A sequence of commands runs to the end. -/
theorem execSeq_next (is : List Instr) (s : State) : ∃ t, execSeq is s = .next t := by
  induction is generalizing s with
  | nil => exact ⟨s, rfl⟩
  | cons i is ih =>
    obtain ⟨t, ht⟩ := ih { s with cells := cellsAfter i s.cells, result := resultOf i s.cells }
    exact ⟨t, by simp [execSeq, exec_eq, ht]⟩

end Sys2Proof.Machine
end

