-- ==== Sys2Proof/Laws/PerInstr.lean ====
section
/-! SUPPORT. Statements made per instruction. The family `EncodesInItsRow`: the word of a command is in the command's
row of the opcode map (30_encoding.md R78). -/

namespace Sys2Proof.Laws.EncodesInItsRow

/-- The encoded word agrees with the row's pattern at every bit the row fixes (30_encoding.md R78). -/
def Statement (i : Instr) : Prop := i.row.accepts (encode i) = true

/-- The word with its DATA taken out of the row's test: a row whose mask leaves DATA free tests OP and SEL alone. -/
theorem accepts_free (p : CmdWord) (m : BitVec 8) (op sel : BitVec 4) (data : Word)
    (h : (op ++ sel) &&& m = p.extractLsb' 16 8) (hp : p.extractLsb' 0 16 = 0#16) :
    OpRow.accepts ⟨p, m ++ 0#16⟩ (packWord op sel data) = true := by
  simp only [OpRow.accepts, packWord, beq_iff_eq]
  have hp' : p = p.extractLsb' 16 8 ++ p.extractLsb' 0 16 := by
    apply BitVec.eq_of_getLsbD_eq
    intro i hi
    simp only [BitVec.getLsbD_append, BitVec.getLsbD_extractLsb']
    by_cases h : i < 16
    · simp [h]
    · simp [h, show i - 16 < 8 by omega, show 16 + (i - 16) = i by omega]
  rw [hp', hp, ← h, BitVec.and_append]
  simp

theorem nop : Statement .nop := rfl
theorem getR8 (r : Reg8) : Statement (.getR8 r) := by cases r <;> rfl
theorem setR8 (r : Reg8) (v : Word) : Statement (.setR8 r v) :=
  accepts_free 0x200000#24 0xF8#8 _ _ v (by cases r <;> simp [Instr.op, Instr.sel, Reg8.code]) rfl
theorem getR16 (r : Reg16) : Statement (.getR16 r) := by cases r <;> rfl
theorem setR16 (r : Reg16) (v : Word) : Statement (.setR16 r v) :=
  accepts_free 0x400000#24 0xFE#8 _ _ v (by cases r <;> simp [Instr.op, Instr.sel, Reg16.code]) rfl
theorem getPair (p : Pair) : Statement (.getPair p) := by cases p <;> rfl
theorem setPair (p : Pair) (v : Word) : Statement (.setPair p v) :=
  accepts_free 0x600000#24 0xFC#8 _ _ v (by cases p <;> simp [Instr.op, Instr.sel, Pair.code]) rfl
theorem getFlag (f : Flag) : Statement (.getFlag f) := by cases f <;> rfl
theorem setFlag (f : Flag) (b : Bool) : Statement (.setFlag f b) := by cases f <;> cases b <;> rfl
theorem powerUp (v : Variant) : Statement (.powerUp v) := by cases v <;> rfl

end Sys2Proof.Laws.EncodesInItsRow
end

