-- ==== Sys2Proof/Tests/Slice0.lean ====
section
/-! SUPPORT. The model's own tests: the checks of WellFormed refuse ill-formed inputs; words written out from the spec
decode as the spec says; one step per test with values from the spec's vectors (95_test_vectors.md) or its rules;
and, for every statement with hypotheses, a state and operands that meet them. -/

namespace Sys2Proof.Tests

open Sys2Proof.Machine Sys2Proof.Claims

/-- The cells after an outcome, if it is a next state. -/
def cellsOf : Host.Outcome State Fault Refusal → Option Cells
  | .next t => some t.cells
  | .fault _ => none
  | .refused _ => none

/-- The result after an outcome, if it is a next state. -/
def resultAfter : Host.Outcome State Fault Refusal → Option (Option Result)
  | .next t => some t.result
  | .fault _ => none
  | .refused _ => none

/-- A state with these cells, nothing returned and nothing at the port. -/
def stateOf (c : Cells) : State := { cells := c, result := none, port := [] }

/-- The power-up cells of GB as 95_test_vectors.md V4 writes them. -/
def gbCells : Cells := ⟨0x01#8, 0xB0#8, 0x00#8, 0x13#8, 0x00#8, 0xD8#8, 0x01#8, 0x4D#8, 0xFFFE#16, 0x0100#16⟩

/-- The state after power-up as GB. -/
def gb : State := stateOf gbCells

/-- The dirty cells of 95_test_vectors.md section 4.6. -/
def dirty : State := stateOf ⟨0xAB#8, 0x50#8, 0x12#8, 0xFF#8, 0xBE#8, 0xEF#8, 0xC0#8, 0x80#8, 0xDFFF#16, 0x8000#16⟩

/-! ## WellFormed: each check refuses an ill-formed input (95_test_vectors.md section 3, Refusals) -/

theorem test_legalWord_refuses_unassigned_op : legalWord 0xA00000#24 = false ∧ legalWord 0xFFFFFF#24 = false := by decide
theorem test_legalWord_refuses_nop_operands : legalWord 0x000001#24 = false ∧ legalWord 0x010000#24 = false := by decide
theorem test_legalWord_refuses_r8_operands :
    legalWord 0x180000#24 = false ∧ legalWord 0x100001#24 = false ∧ legalWord 0x280012#24 = false := by decide
theorem test_legalWord_refuses_r16_operands : legalWord 0x320000#24 = false ∧ legalWord 0x42FFFF#24 = false := by decide
theorem test_legalWord_refuses_pair_operands : legalWord 0x540000#24 = false ∧ legalWord 0x641234#24 = false := by decide
theorem test_legalWord_refuses_flag_operands :
    legalWord 0x740000#24 = false ∧ legalWord 0x830002#24 = false ∧ legalWord 0x840001#24 = false := by decide
theorem test_legalWord_refuses_power_up_operands : legalWord 0x940000#24 = false ∧ legalWord 0x900001#24 = false := by decide
theorem test_legalWord_accepts_truncation : legalWord 0x201234#24 = true := by decide
theorem test_tableLegal_refuses_low_nibble_of_f :
    tableLegal (fun v => { docPowerUpTable v with f := if v = .sgb then 0xB1#8 else 0xB0#8 }) = false := by decide

/-! ## Decoding: words of 95_test_vectors.md section 3 -/

theorem test_decode_nop : decode 0x000000#24 = .ok .nop := by decide
theorem test_decode_get_r8 :
    [0x100000#24, 0x110000#24, 0x120000#24, 0x130000#24, 0x140000#24, 0x150000#24, 0x160000#24, 0x170000#24].map decode =
      [.ok (.getR8 .a), .ok (.getR8 .f), .ok (.getR8 .b), .ok (.getR8 .c), .ok (.getR8 .d), .ok (.getR8 .e),
        .ok (.getR8 .h), .ok (.getR8 .l)] := by decide
theorem test_decode_set_r8 :
    [0x200077#24, 0x2100F0#24, 0x22007E#24, 0x2300FF#24, 0x2400BE#24, 0x2500EF#24, 0x260001#24, 0x270080#24].map decode =
      [.ok (.setR8 .a 0x77#16), .ok (.setR8 .f 0xF0#16), .ok (.setR8 .b 0x7E#16), .ok (.setR8 .c 0xFF#16),
        .ok (.setR8 .d 0xBE#16), .ok (.setR8 .e 0xEF#16), .ok (.setR8 .h 0x01#16), .ok (.setR8 .l 0x80#16)] := by decide
theorem test_decode_r16 :
    [0x300000#24, 0x310000#24, 0x40FFFC#24, 0x410150#24].map decode =
      [.ok (.getR16 .sp), .ok (.getR16 .pc), .ok (.setR16 .sp 0xFFFC#16), .ok (.setR16 .pc 0x0150#16)] := by decide
theorem test_decode_pair :
    [0x500000#24, 0x510000#24, 0x520000#24, 0x530000#24, 0x60ABCD#24, 0x611234#24, 0x62BEEF#24, 0x63C000#24].map decode =
      [.ok (.getPair .af), .ok (.getPair .bc), .ok (.getPair .de), .ok (.getPair .hl), .ok (.setPair .af 0xABCD#16),
        .ok (.setPair .bc 0x1234#16), .ok (.setPair .de 0xBEEF#16), .ok (.setPair .hl 0xC000#16)] := by decide
theorem test_decode_flag :
    [0x700000#24, 0x710000#24, 0x720000#24, 0x730000#24, 0x800000#24, 0x800001#24, 0x810001#24, 0x820000#24,
        0x830001#24].map decode =
      [.ok (.getFlag .zf), .ok (.getFlag .nf), .ok (.getFlag .hf), .ok (.getFlag .cf), .ok (.setFlag .zf false),
        .ok (.setFlag .zf true), .ok (.setFlag .nf true), .ok (.setFlag .hf false), .ok (.setFlag .cf true)] := by decide
theorem test_decode_power_up :
    [0x900000#24, 0x910000#24, 0x920000#24, 0x930000#24].map decode =
      [.ok (.powerUp .gb), .ok (.powerUp .gbp), .ok (.powerUp .gbc), .ok (.powerUp .sgb)] := by decide
theorem test_decode_names_the_reason :
    decode 0x010000#24 = .error .selNotZero ∧ decode 0x100001#24 = .error .dataNotZero ∧
      decode 0xB00000#24 = .error .opUnassigned := by decide
theorem test_encode_writes_the_listed_words :
    encode (.setPair .bc 0x1234#16) = 0x611234#24 ∧ encode (.setFlag .nf true) = 0x810001#24 ∧
      encode (.getR8 .l) = 0x170000#24 := by decide
theorem test_decodeTableWord : decodeTableWord 24 0x62BEEF = some (.setPair .de 0xBEEF#16) ∧ decodeTableWord 24 0xA00000 = none := by
  decide

/-! ## The commands (95_test_vectors.md section 4 and section 6) -/

theorem test_nop : exec .nop gb = .next gb := rfl
/-- 40_reg_access.md R90, example. -/
theorem test_get_r8_e : resultAfter (exec (.getR8 .e) gb) = some (some (.byte 0xD8#8)) := by decide
theorem test_get_r8_f : resultAfter (exec (.getR8 .f) dirty) = some (some (.byte 0x50#8)) := by decide
/-- Section 4.2: a value wider than the cell. -/
theorem test_set_r8_truncates : cellsOf (exec (.setR8 .a 0x1234#16) gb) = some { gbCells with a := 0x34#8 } := by decide
/-- Section 4.2 and X6: the mask of F. -/
theorem test_set_r8_masks_f : cellsOf (exec (.setR8 .f 0x00A5#16) gb) = some { gbCells with f := 0xA0#8 } := by decide
/-- X8: reading PC does not advance it. -/
theorem test_get_r16_pc : exec (.getR16 .pc) gb = .next { gb with result := some (.word 0x0100#16) } := rfl
theorem test_get_r16_sp : resultAfter (exec (.getR16 .sp) dirty) = some (some (.word 0xDFFF#16)) := by decide
theorem test_set_r16_sp : cellsOf (exec (.setR16 .sp 0xFFFF#16) gb) = some { gbCells with sp := 0xFFFF#16 } := by decide
theorem test_set_r16_pc : cellsOf (exec (.setR16 .pc 0x0000#16) gb) = some { gbCells with pc := 0x0000#16 } := by decide
/-- X7: the high byte first. -/
theorem test_get_pair_hl : resultAfter (exec (.getPair .hl) gb) = some (some (.word 0x014D#16)) := by decide
theorem test_get_pair_af : resultAfter (exec (.getPair .af) dirty) = some (some (.word 0xAB50#16)) := by decide
/-- X1: AF loses its low nibble. -/
theorem test_set_pair_af : cellsOf (exec (.setPair .af 0xFFFF#16) gb) = some { gbCells with a := 0xFF#8, f := 0xF0#8 } := by
  decide
/-- X2: BC keeps it. -/
theorem test_set_pair_bc : cellsOf (exec (.setPair .bc 0x000F#16) gb) = some { gbCells with b := 0x00#8, c := 0x0F#8 } := by
  decide
theorem test_get_flag_nf : resultAfter (exec (.getFlag .nf) gb) = some (some (.bit false)) := by decide
theorem test_get_flag_cf : resultAfter (exec (.getFlag .cf) gb) = some (some (.bit true)) := by decide
/-- X4: clearing keeps the other flags. -/
theorem test_set_flag_clears_one : cellsOf (exec (.setFlag .zf false) gb) = some { gbCells with f := 0x30#8 } := by decide
/-- X3: setting keeps the other flags. -/
theorem test_set_flag_sets_one : cellsOf (exec (.setFlag .nf true) gb) = some { gbCells with f := 0xF0#8 } := by decide
/-- Section 4.6: nothing of the old state survives. -/
theorem test_power_up_gbc : cellsOf (exec (.powerUp .gbc) dirty) = some { gbCells with a := 0x11#8 } := by decide
/-- X5: the variant matters. -/
theorem test_power_up_gbp : cellsOf (exec (.powerUp .gbp) dirty) = some { gbCells with a := 0xFF#8 } := by decide

/-! ## The step and the port (30_encoding.md R60) -/

theorem test_reset : State.reset = gb := by decide
theorem test_step_runs_a_table_word :
    step (State.reset.withFetchWord 24 0x62BEEF) = exec (.setPair .de 0xBEEF#16) State.reset := rfl
theorem test_step_refuses_a_reserved_word :
    step (State.reset.withFetchWord 24 0x830002) = .refused (.reservedWord .dataNotZero) := rfl
/-- 60_exceptions.md R136: the command at a reset edge is ignored. -/
theorem test_reset_wins :
    cellsOf (step { dirty with port := [{ reset := true, variant := 1#2, cmdValid := true, cmd := 0x22007E#24 }] }) =
      some { gbCells with a := 0xFF#8 } := by decide
theorem test_idle_edge : cellsOf (step { dirty with port := [Edge.idle] }) = some dirty.cells := by decide
/-- 30_encoding.md R74: RESP of a flag read. -/
theorem test_resp_of_flag : ({ gb with result := some (.bit true) } : State).resp = 0x0001#16 ∧ gb.resp = 0x0000#16 ∧
    gb.respValid = false := by decide

/-! ## Text (30_encoding.md R76, R77) -/

/-- `set_pair BC, 0x1234  # x` -/
theorem test_assemble_set_pair : parseLine ['s', 'e', 't', '_', 'p', 'a', 'i', 'r', ' ', 'B', 'C', ',', ' ', '0', 'x', '1',
    '2', '3', '4', ' ', '#', 'x'] = .ok (some (.command (.setPair .bc 0x1234#16))) := by decide
/-- `get_flag H`: the flag Half-carry, not the cell H. -/
theorem test_assemble_flag_synonym :
    parseLine ['g', 'e', 't', '_', 'f', 'l', 'a', 'g', ' ', 'H'] = .ok (some (.command (.getFlag .hf))) := by decide
/-- `set_r16 SP,65536`: does not fit. -/
theorem test_assemble_number_too_large :
    parseLine ['s', 'e', 't', '_', 'r', '1', '6', ' ', 'S', 'P', ',', '6', '5', '5', '3', '6'] = .error .numberTooLarge := by
  decide
/-- `reset GBC`, a comment line, and `nop`. -/
theorem test_assemble_text : assembleText ['r', 'e', 's', 'e', 't', ' ', 'G', 'B', 'C', '\n', '#', ' ', 'x', '\n', 'n', 'o',
    'p'] = .ok [0x920000#24, 0x000000#24] := by decide

/-! ## Witnesses: the hypotheses of every statement can be met, clause by clause -/

theorem witness_EncodeAndDecodeAreInverse :
    decode 0x830001#24 = .ok (.setFlag .cf true) ∧ returnWidth (.getFlag .cf) ≠ none ∧
      numberValue ['2', '5', '5'] = some 255 ∧ 255 < 256 := by decide

theorem witness_ReservedWords :
    (opOf 0x180000#24 = 0x1#4 ∧ (0x180000#24).getLsbD 19 = true) ∧
    (opOf 0x42FFFF#24 = 0x4#4 ∧ (0x42FFFF#24).extractLsb' 17 3 ≠ 0#3) ∧
    ((0x5#4 ≤ opOf 0x540000#24 ∧ opOf 0x540000#24 ≤ 0x9#4) ∧ (0x540000#24).extractLsb' 18 2 ≠ 0#2) ∧
    (opOf 0x010000#24 = 0x0#4 ∧ (0x010000#24).extractLsb' 16 4 ≠ 0#4) ∧
    (opOf 0x900001#24 = 0x9#4 ∧ (0x900001#24).extractLsb' 0 16 ≠ 0#16) ∧
    (opOf 0x830002#24 = 0x8#4 ∧ (0x830002#24).extractLsb' 1 15 ≠ 0#15) ∧ 0xA#4 ≤ opOf 0xA00000#24 := by decide

theorem witness_RowsMatchExactlyTheLegalWords :
    decode 0x93_0000#24 = .ok (.powerUp .sgb) ∧ (⟨0x900000#24, 0xFCFFFF#24⟩ : OpRow) ∈ opRows ∧
      OpRow.accepts ⟨0x900000#24, 0xFCFFFF#24⟩ 0x930000#24 = true ∧
      (∀ r ∈ opRows, r.accepts 0xA00000#24 = false) := by decide

theorem witness_SelectorCodesAreTheTables :
    decodeFields 0x1#4 7#4 0#16 = .ok (.getR8 .l) ∧ decodeFields 0x2#4 7#4 5#16 = .ok (.setR8 .l 5#16) ∧
    decodeFields 0x3#4 1#4 0#16 = .ok (.getR16 .pc) ∧ decodeFields 0x4#4 1#4 5#16 = .ok (.setR16 .pc 5#16) ∧
    decodeFields 0x5#4 3#4 0#16 = .ok (.getPair .hl) ∧ decodeFields 0x6#4 3#4 5#16 = .ok (.setPair .hl 5#16) ∧
    decodeFields 0x7#4 3#4 0#16 = .ok (.getFlag .cf) ∧
    decodeFields 0x8#4 3#4 1#16 = .ok (.setFlag .cf ((1#16).getLsbD 0)) ∧
    decodeFields 0x9#4 3#4 0#16 = .ok (.powerUp .sgb) ∧
    ((Edge.resetAs .sgb).reset = true ∧ (Edge.resetAs .sgb).variant.toNat = variantNumber .sgb) := by decide

theorem witness_AssemblerFollowsTheTextualForm :
    (numberValue ['0', 'x', 'F', 'F', 'F', 'F'] = some 65535 ∧ 65535 < 65536) ∧
    (numberValue ['6', '5', '5', '3', '6'] = some 65536 ∧ 65536 ≤ 65536) ∧ parseFlag ['C'] = .ok .cf := by decide

theorem witness_NopChangesNothing : Edge.idle.reset = false ∧ Edge.idle.cmdValid = false := by decide

theorem witness_GetR8ReturnsTheCell :
    dirty.Inv ∧ (∃ t u, exec (.setR8 .f 0x1FF#16) dirty = .next t ∧ exec (.getR8 .f) t = .next u) ∧
      (∃ t, exec (.getR8 .f) dirty = .next t) ∧ ∃ t u, exec (.powerUp .gb) dirty = .next t ∧ exec (.getR8 .e) t = .next u :=
  ⟨by decide, ⟨_, _, rfl, rfl⟩, ⟨_, rfl⟩, _, _, rfl, rfl⟩

theorem witness_SetR8WritesTheLowByte :
    (∃ t, exec (.setR8 .f 0x00FF#16) dirty = .next t) ∧ (∃ t, exec (.setR8 .a 0x1234#16) dirty = .next t) ∧
      (∃ t u, exec (.setR8 .b 0x007E#16) dirty = .next t ∧ exec (.getPair .bc) t = .next u) ∧
      (dirty.Inv ∧ ∃ t u, exec (.getR8 .f) dirty = .next t ∧ t.result = some (.byte 0x50#8) ∧
        exec (.setR8 .f ((0x50#8).setWidth 16)) dirty = .next u) :=
  ⟨⟨_, rfl⟩, ⟨_, rfl⟩, ⟨_, _, rfl, rfl⟩, by decide, _, _, rfl, rfl, rfl⟩

theorem witness_GetR16ReturnsTheCell :
    (∃ t u, exec (.setR16 .pc 0xFFFF#16) dirty = .next t ∧ exec (.getR16 .pc) t = .next u) ∧
      ∃ t u, exec (.powerUp .gbc) dirty = .next t ∧ exec (.getR16 .sp) t = .next u :=
  ⟨⟨_, _, rfl, rfl⟩, _, _, rfl, rfl⟩

theorem witness_SetR16WritesAllSixteenBits :
    ∃ s t, s.port = Edge.idle :: [] ∧ exec (.setR16 .pc 0xFFFF#16) s = .next t :=
  ⟨{ dirty with port := [Edge.idle] }, _, rfl, rfl⟩

theorem witness_GetPairReturnsHighThenLow :
    (dirty.Inv ∧ ∃ t, exec (.getPair .af) dirty = .next t) ∧
      (∃ t u, exec (.setFlag .cf true) dirty = .next t ∧ exec (.getPair .af) t = .next u) ∧
      ∃ t u, exec (.powerUp .gb) dirty = .next t ∧ exec (.getPair .hl) t = .next u :=
  ⟨⟨by decide, _, rfl⟩, ⟨_, _, rfl, rfl⟩, _, _, rfl, rfl⟩

theorem witness_SetPairWritesBothCells :
    (∃ t u, exec (.setPair .af 0xFFFF#16) dirty = .next t ∧ exec (.getPair .af) t = .next u) ∧
      (∃ t, exec (.setPair .hl 0x0000#16) dirty = .next t) ∧ (∃ t, exec (.setPair .af 0x000F#16) dirty = .next t) ∧
      (∃ t, exec (.setPair .de 0xBEEF#16) dirty = .next t) ∧ ∃ t, exec (.setPair .af 0xBEEF#16) dirty = .next t :=
  ⟨⟨_, _, rfl, rfl⟩, ⟨_, rfl⟩, ⟨_, rfl⟩, ⟨_, rfl⟩, _, rfl⟩

theorem witness_GetFlagReturnsItsBit :
    (dirty.cells.f.getLsbD (7 - flagNumber .hf) = ({ dirty with result := some (.bit true) } : State).cells.f.getLsbD
      (7 - flagNumber .hf)) ∧ (∃ t u, exec (.setR8 .f 0x10#16) dirty = .next t ∧ exec (.getFlag .cf) t = .next u) ∧
      ∃ t u, exec (.powerUp .gb) dirty = .next t ∧ exec (.getFlag .nf) t = .next u :=
  ⟨rfl, ⟨_, _, rfl, rfl⟩, _, _, rfl, rfl⟩

theorem witness_SetFlagWritesOneBitOfF :
    (gb.cells.flag .cf = true ∧ ∃ t, exec (.setFlag .cf true) gb = .next t) ∧
      (gb.cells.f = 0xB0#8 ∧ ∃ t u, exec (.setFlag .nf true) gb = .next t ∧ exec (.setFlag .zf false) t = .next u) :=
  ⟨⟨by decide, _, rfl⟩, rfl, _, _, rfl, rfl⟩

theorem witness_PowerUpLoadsTheTable :
    ((Edge.resetAs .sgb).reset = true ∧ (Edge.resetAs .sgb).variant = Variant.code .sgb) ∧
      ∃ t t', exec (.powerUp .sgb) dirty = .next t ∧ exec (.powerUp .sgb) gb = .next t' :=
  ⟨by decide, _, _, rfl, rfl⟩

theorem witness_EveryCommandHasExactlyOneNextState :
    ({ gb with port := [Edge.command 0x71FFFF#24, Edge.command 0x930000#24] } : State).port =
        Edge.command 0x71FFFF#24 :: [Edge.command 0x930000#24] ∧
      (Edge.command 0x930000#24).reset = false ∧ (Edge.command 0x930000#24).cmdValid = true ∧
      legalWord (Edge.command 0x930000#24).cmd = true := by decide

theorem witness_EveryCellHoldsTheLastValueWritten : ∃ t, exec (.setPair .af 0xFFFF#16) dirty = .next t := ⟨_, rfl⟩

theorem witness_CommandsReadAndWriteOnlyTheirCells :
    (∃ t, exec (.setFlag .cf true) dirty = .next t) ∧
    ((∀ r, reads8 (.setFlag .cf true) r → dirty.cells.read8 r = ({ dirty.cells with a := 0#8 } : Cells).read8 r) ∧
      (∀ r, reads16 (.setFlag .cf true) r → dirty.cells.read16 r = ({ dirty.cells with a := 0#8 } : Cells).read16 r) ∧
      ∃ t t', exec (.setFlag .cf true) dirty = .next t ∧
        exec (.setFlag .cf true) { dirty with cells := { dirty.cells with a := 0#8 } } = .next t') ∧
    (0x1200#16).extractLsb' 4 4 = (0x340F#16).extractLsb' 4 4 :=
  ⟨⟨_, rfl⟩, ⟨fun r h => by cases h; rfl, fun r h => h.elim, _, _, rfl, rfl⟩, by decide⟩

theorem witness_ReadsHaveNoSideEffect : readsOnly (.getPair .af) ∧ ∃ t, exec (.getPair .af) dirty = .next t :=
  ⟨⟨fun _ h => h, fun _ h => h⟩, _, rfl⟩

theorem witness_WritesAreIdempotent :
    (¬ readsOnly (.setFlag .cf true) ∧ ∃ t, exec (.setFlag .cf true) dirty = .next t) ∧
      (∀ f b, Instr.setPair .af 0xFFFF#16 ≠ .setFlag f b) ∧
      (∃ t t', exec (.setPair .af 0xFFFF#16) dirty = .next t ∧ exec (.setPair .af 0xFFFF#16) gb = .next t') :=
  ⟨⟨fun h => h.1 .f rfl, _, rfl⟩, fun _ _ h => (nomatch h), _, _, rfl, rfl⟩

theorem witness_MixedWidthAccessesSeeEachOther :
    (∃ t u, exec (.setPair .af 0xFFFF#16) dirty = .next t ∧ exec (.getR8 .f) t = .next u) ∧
      (∃ t, execSeq [.setR8 .a 0x1FF#16, .setR8 .f 0x1FF#16, .getPair .af] dirty = .next t) ∧
      (∃ t, execSeq [.setR8 .f 0x1FF#16, .setR8 .a 0x1FF#16, .getPair .af] dirty = .next t) ∧
      ∃ t u u', exec (.setFlag .cf true) dirty = .next t ∧ exec (.getR8 .f) t = .next u ∧ exec (.getPair .af) t = .next u' :=
  ⟨⟨_, _, rfl, rfl⟩, ⟨_, rfl⟩, ⟨_, rfl⟩, _, _, _, rfl, rfl, rfl⟩

theorem witness_ResponsePortShowsTheResult :
    (∃ t, exec (.setR8 .a 0xFFFF#16) dirty = .next t) ∧ returnWidth (.setR8 .a 0xFFFF#16) = none ∧
      (∃ t, exec (.getR16 .pc) dirty = .next t) ∧ ∃ t, exec (.getFlag .cf) dirty = .next t :=
  ⟨⟨_, rfl⟩, rfl, ⟨_, rfl⟩, _, rfl⟩

theorem witness_FlagsAreIndependent :
    Flag.zf ≠ Flag.cf ∧ ∃ t u u', exec (.setFlag .zf true) dirty = .next t ∧ exec (.getFlag .cf) dirty = .next u ∧
      exec (.getFlag .cf) t = .next u' :=
  ⟨by decide, _, _, _, rfl, rfl, rfl⟩

theorem witness_FlagsAreWrittenOnlyByFourCommands :
    ((∃ t, exec (.setR8 .a 0xFF#16) dirty = .next t) ∧ (∀ f b, Instr.setR8 .a 0xFF#16 ≠ .setFlag f b) ∧
      (∀ v, Instr.setR8 .a 0xFF#16 ≠ .setPair .af v) ∧ (∀ v, Instr.setR8 .a 0xFF#16 ≠ .setR8 .f v) ∧
      (∀ v, Instr.setR8 .a 0xFF#16 ≠ .powerUp v)) ∧
    (∃ t, exec (.setFlag .cf true) dirty = .next t) ∧ (∃ t, exec (.setPair .af 0x10#16) dirty = .next t) ∧
    (∃ t, exec (.powerUp .gb) dirty = .next t) ∧ (∃ t, exec (.getFlag .cf) dirty = .next t) ∧
    ∃ t, exec (.getPair .af) dirty = .next t :=
  ⟨⟨⟨_, rfl⟩, fun _ _ h => (nomatch h), fun _ h => (nomatch h), fun _ h => (nomatch h), fun _ h => (nomatch h)⟩,
    ⟨_, rfl⟩, ⟨_, rfl⟩, ⟨_, rfl⟩, ⟨_, rfl⟩, _, rfl⟩

theorem witness_SetFlagKeepsTheLowNibbleOfF :
    (dirty.Inv ∧ ∃ t, exec (.setFlag .cf false) dirty = .next t) ∧
      ((∃ t, exec (.setR8 .f 0xFF#16) dirty = .next t) ∧ ∀ f b, Instr.setR8 .f 0xFF#16 ≠ .setFlag f b) :=
  ⟨⟨by decide, _, rfl⟩, ⟨_, rfl⟩, fun _ _ h => (nomatch h)⟩

theorem witness_PairsRoundTrip :
    (Pair.hl ≠ .af ∧ ∃ t u, exec (.setPair .hl 0xFFFF#16) dirty = .next t ∧ exec (.getPair .hl) t = .next u) ∧
      (∃ t u, exec (.setPair .af 0xFFFF#16) dirty = .next t ∧ exec (.getPair .af) t = .next u) ∧
      (dirty.Inv ∧ ∃ x t u, exec (.getPair .af) dirty = .next t ∧ t.result = some (.word x) ∧
        exec (.setPair .af x) t = .next u) :=
  ⟨⟨by decide, _, _, rfl, rfl⟩, ⟨_, _, rfl, rfl⟩, by decide, _, _, _, rfl, rfl, rfl⟩

theorem witness_LowByteMasksStayDifferent :
    Pair.hl ≠ .af ∧ (∃ t, exec (.setPair .hl 0xFFFF#16) dirty = .next t) ∧
      (∃ t, exec (.setR8 (pairLo .hl) 0xFFFF#16) dirty = .next t) ∧
      ∃ t t', exec (.setPair .af 0x000F#16) dirty = .next t ∧ exec (.setPair .hl 0x000F#16) dirty = .next t' :=
  ⟨by decide, ⟨_, rfl⟩, ⟨_, rfl⟩, _, _, rfl, rfl⟩

theorem witness_AfDoesNotRoundTrip :
    (∃ t u, exec (.setPair .af 0xFFFF#16) dirty = .next t ∧ exec (.getPair .af) t = .next u) ∧
      (∃ t u, exec (.setR8 .f 0x1FF#16) dirty = .next t ∧ exec (.getR8 .f) t = .next u) ∧
      ((0xFFF0#16).extractLsb' 4 12 = (0xFFFF#16).extractLsb' 4 12 ∧
        ∃ t t', exec (.setPair .af 0xFFF0#16) dirty = .next t ∧ exec (.setPair .af 0xFFFF#16) dirty = .next t') ∧
      (Pair.de ≠ .af ∧ ∃ t u, exec (.setPair .de 0xFFFF#16) dirty = .next t ∧ exec (.getPair .de) t = .next u) :=
  ⟨⟨_, _, rfl, rfl⟩, ⟨_, _, rfl, rfl⟩, ⟨by decide, _, _, rfl, rfl⟩, by decide, _, _, rfl, rfl⟩

theorem witness_PcAndSpSteerNothing :
    ((∃ t, exec (.setR16 .sp 0xFFFF#16) dirty = .next t) ∧ (∀ v, Instr.setR16 .sp 0xFFFF#16 ≠ .setR16 .pc v) ∧
      (∀ v, Instr.setR16 .sp 0xFFFF#16 ≠ .powerUp v)) ∧
    ((∃ t, exec (.setR16 .pc 0xFFFF#16) dirty = .next t) ∧ (∀ v, Instr.setR16 .pc 0xFFFF#16 ≠ .setR16 .sp v) ∧
      (∀ v, Instr.setR16 .pc 0xFFFF#16 ≠ .powerUp v)) ∧ ∃ t, step (dirty.present [.getR16 .pc]) = .next t :=
  ⟨⟨⟨_, rfl⟩, fun _ h => (nomatch h), fun _ h => (nomatch h)⟩,
    ⟨⟨_, rfl⟩, fun _ h => (nomatch h), fun _ h => (nomatch h)⟩, _, rfl⟩

theorem witness_StepRunsTheDecodedCommand :
    (dirty.present [.setFlag .cf true]).port = Edge.command 0x830001#24 :: [] ∧
      (Edge.command 0x830001#24).reset = false ∧ (Edge.command 0x830001#24).cmdValid = true ∧
      decode (Edge.command 0x830001#24).cmd = .ok (.setFlag .cf true) ∧ decode 0x830001#24 = .ok (.setFlag .cf true) := by decide

theorem witness_ReservedWordIsRefused :
    ({ dirty with port := [Edge.command 0x830002#24] } : State).port = Edge.command 0x830002#24 :: [] ∧
      (Edge.command 0x830002#24).reset = false ∧ (Edge.command 0x830002#24).cmdValid = true ∧
      legalWord (Edge.command 0x830002#24).cmd = false := by decide

theorem witness_ResetWinsAndPowersUp :
    ({ dirty with port := [Edge.resetAs .sgb] } : State).port = Edge.resetAs .sgb :: [] ∧
      (Edge.resetAs .sgb).reset = true := by decide

theorem witness_IdleEdgesChangeNoCell :
    ({ dirty with port := [Edge.idle] } : State).port = Edge.idle :: [] ∧ Edge.idle.reset = false ∧
      Edge.idle.cmdValid = false ∧ dirty.port = [] := by decide

theorem witness_PowerUpStateHoldsTheTable :
    ∃ t, step { dirty with port := Edge.resetAs .sgb :: dirty.port } = .next t := ⟨_, rfl⟩

theorem witness_EveryStepKeepsTheLowNibbleOfFZero :
    dirty.Inv ∧ (∃ t, exec (.setPair .af 0xFFFF#16) dirty = .next t) ∧
      ∃ t, step { dirty with port := [Edge.command 0x60FFFF#24] } = .next t :=
  ⟨by decide, ⟨_, rfl⟩, _, rfl⟩

theorem witness_EveryRunKeepsTheLowNibbleOfFZero :
    dirty.Inv ∧ (∃ t, Host.Core.run Sys2Proof.core 1 dirty = .next t) ∧
      ∃ t, Host.Core.run Sys2Proof.core 1 { State.powerUp .gb with port := [Edge.command 0x60FFFF#24] } = .next t :=
  ⟨by decide, ⟨_, rfl⟩, _, rfl⟩

theorem witness_PoweringUpEstablishesTheInvariant :
    startsWithPowerUp [Edge.idle, Edge.command 0x930000#24] = true ∧
      (∃ e ∈ [Edge.idle, Edge.command 0x930000#24].take 2, e.presented ≠ .idle) ∧
      ∃ t, Host.Core.run Sys2Proof.core 2
        { dirty with cells := { dirty.cells with f := 0xFF#8 }, port := [Edge.idle, Edge.command 0x930000#24] } = .next t :=
  ⟨by decide, by decide, _, rfl⟩

theorem witness_BehaviourIsAFunctionOfCellsAndPort :
    dirty.cells = ({ dirty with result := some (.bit true) } : State).cells ∧
      dirty.port = ({ dirty with result := some (.bit true) } : State).port ∧
      dirty ≠ { dirty with result := some (.bit true) } := by decide

theorem witness_SnapshotAndRestoreDuplicateAnInstance :
    (∃ t, execSeq Pseudo.snapshot.expand dirty = .next t) ∧ dirty.Inv := ⟨⟨_, rfl⟩, by decide⟩

theorem witness_InstancesShareNothing :
    ∃ y z : System 2, y.step 1 = .next z ∧ (0 : Fin 2) ≠ 1 ∧ (∃ t, step y.inst[(1 : Fin 2)] = .next t) ∧
      ∃ y' : System 2, y.inst[(1 : Fin 2)] = y'.inst[(1 : Fin 2)] ∧ y ≠ y' :=
  ⟨⟨#v[gb, dirty]⟩, _, rfl, by decide, ⟨_, rfl⟩, ⟨#v[dirty, dirty]⟩, rfl, by decide⟩

theorem witness_DuplicatesAreIndependent :
    ∃ y z z' : System 2, (0 : Fin 2) ≠ 1 ∧ (y.duplicate 0 1).step 1 = .next z ∧ (y.duplicate 0 1).step 0 = .next z' :=
  ⟨⟨#v[gb, dirty]⟩, _, _, by decide, rfl, rfl⟩

end Sys2Proof.Tests
end

section
/-! SUPPORT. Facts about the operations that the statements on the state (10_state.md) share: each operand form and view
in the spelling of the spec's tables, the cells after a command read back, one step as one command, and the induction
over runs. -/

namespace Sys2Proof.Machine

open Sys2Proof.Claims

/-! ## Operands, masks and views -/

theorem lowByte_eq_setWidth (v : Word) : lowByte v = v.setWidth 8 :=
  (BitVec.setWidth_eq_extractLsb' (by decide)).symm

theorem highByte_eq_setWidth (v : Word) : highByte v = (v >>> 8).setWidth 8 :=
  BitVec.setWidth_ushiftRight_eq_extractLsb.symm

/-- The mask of a flag is the one of its number (10_state.md R22). -/
theorem maskOf_eq_flagMask (f : Flag) : maskOf f = flagMask f := by cases f <;> rfl

/-- The flag write with the mask and the complement of 42_flag_access.md R111 and R113. -/
theorem flagWrite_eq_maskOf (x : Byte) (f : Flag) (b : Bool) :
    flagWrite x f b = if b then x ||| maskOf f else x &&& (0xFF#8 ^^^ maskOf f) := by
  rw [maskOf_eq_flagMask, show 0xFF#8 ^^^ flagMask f = ~~~flagMask f from BitVec.allOnes_xor]
  rfl

theorem byteWriteMask_of_ne_f {r : Reg8} (h : r ≠ .f) : byteWriteMask r = 0xFF#8 := by
  cases r with
  | f => exact absurd rfl h
  | _ => rfl

theorem pairLowMask_of_ne_af {p : Pair} (h : p ≠ .af) : pairLowMask p = 0xFF#8 := by
  cases p with
  | af => exact absurd rfl h
  | _ => rfl

/-- The low-byte mask of `set_pair` as a mask over the whole value (41_pair_access.md R101). -/
theorem setWidth_and_pairMask (p : Pair) (v : Word) :
    (v &&& (if p = .af then 0x00F0#16 else 0x00FF#16)).setWidth 8 = lowByte v &&& pairLowMask p := by
  rw [BitVec.setWidth_and, lowByte_eq_setWidth]
  cases p <;> rfl

/-- A flag is its bit of F (10_state.md R21). -/
theorem flagTest_eq_getLsbD (f : Flag) : ∀ x : Byte, flagTest x f = x.getLsbD (7 - flagNumber f) := by
  cases f <;> decide

theorem Cells.flag_eq_getLsbD (c : Cells) (f : Flag) : c.flag f = c.f.getLsbD (7 - flagNumber f) :=
  flagTest_eq_getLsbD f c.f

/-- The mask of F loses no flag (40_reg_access.md R92). -/
theorem flagTest_lowByte_and_f0 (v : Word) (f : Flag) :
    flagTest (lowByte v &&& 0xF0#8) f = v.getLsbD (7 - flagNumber f) := by
  rw [flagTest_eq_getLsbD]
  cases f <;> simp [lowByte, flagNumber]

theorem Cells.flag_setFlag (c : Cells) (f g : Flag) (b : Bool) :
    (c.setFlag f b).flag g = if g = f then b else c.flag g := by
  by_cases h : g = f
  · subst h; simp [Cells.flag]
  · simp [Cells.flag, h, flagTest_flagWrite_of_ne]

/-- The low cell of a pair is the low byte of its view (10_state.md R17). -/
theorem Cells.getLsbD_pair_low (c : Cells) (p : Pair) {k : Nat} (hk : k < 8) :
    (c.pair p).getLsbD k = (c.read8 (pairLo p)).getLsbD k := by
  rw [Cells.pair, BitVec.getLsbD_append, if_pos hk]

/-- The pair an 8-bit cell belongs to (10_state.md R16). -/
def pairWith : Reg8 → Pair
  | .a => .af | .f => .af | .b => .bc | .c => .bc | .d => .de | .e => .de | .h => .hl | .l => .hl

theorem eq_pairHi_or_eq_pairLo_iff {r : Reg8} {p : Pair} : r = pairHi p ∨ r = pairLo p ↔ p = pairWith r := by
  cases r <;> cases p <;> decide

/-! ## The cells after a command -/

/-- An 8-bit cell after a command holds what the command's rule gives it. -/
theorem read8_cellsAfter (i : Instr) (c : Cells) (r : Reg8) : (cellsAfter i c).read8 r = byteAfter i c r := by
  cases i with
  | nop => rfl
  | getR8 _ => rfl
  | getR16 _ => rfl
  | getPair _ => rfl
  | getFlag _ => rfl
  | powerUp _ => rfl
  | setR16 q v => exact Cells.read8_write16 ..
  | setR8 q v =>
    by_cases h : r = q
    · subst h
      by_cases hf : r = .f
      · subst hf; simp [cellsAfter, byteAfter, byteWriteMask, lowByte_eq_setWidth]
      · simp [cellsAfter, byteAfter, hf, byteWriteMask_of_ne_f, lowByte_eq_setWidth]
    · simp [cellsAfter, byteAfter, h, Cells.read8_setByte_of_ne]
  | setPair p v =>
    by_cases hhi : r = pairHi p
    · subst hhi; simp [cellsAfter, byteAfter, highByte_eq_setWidth]
    · by_cases hlo : r = pairLo p
      · subst hlo; simp only [cellsAfter, byteAfter, Cells.read8_setPair_lo, hhi, if_false, if_true, setWidth_and_pairMask]
      · simp [cellsAfter, byteAfter, hhi, hlo, Cells.read8_setPair_of_ne]
  | setFlag f b =>
    by_cases h : r = .f
    · subst h
      exact flagWrite_eq_maskOf c.f f b
    · simp [cellsAfter, byteAfter, h, Cells.read8_setFlag_of_ne]

/-- A 16-bit cell after a command holds what the command's rule gives it. -/
theorem read16_cellsAfter (i : Instr) (c : Cells) (r : Reg16) : (cellsAfter i c).read16 r = wordAfter i c r := by
  cases i with
  | nop => rfl
  | getR8 _ => rfl
  | getR16 _ => rfl
  | getPair _ => rfl
  | getFlag _ => rfl
  | powerUp _ => rfl
  | setR8 q v => exact Cells.read16_setByte ..
  | setPair p v => exact Cells.read16_setPair ..
  | setFlag f b => exact Cells.read16_setFlag ..
  | setR16 q v =>
    by_cases h : r = q
    · subst h; simp [cellsAfter, wordAfter]
    · simp [cellsAfter, wordAfter, h, Cells.read16_write16_of_ne]

/-- A 16-bit cell changes only by `set_r16` of that cell and by `power_up` (10_state.md R13, R14). -/
theorem wordAfter_of_not_written {i : Instr} {r : Reg16} (hset : ∀ v, i ≠ .setR16 r v) (hpow : ∀ v, i ≠ .powerUp v)
    (c : Cells) : wordAfter i c r = c.read16 r := by
  cases i with
  | setR16 q v =>
    have h : r ≠ q := fun e => hset v (by rw [e])
    simp [wordAfter, h]
  | powerUp v => exact absurd rfl (hpow v)
  | _ => rfl

/-- F changes only by the four commands of 10_state.md R23. -/
theorem byteAfter_f_of_not_written {i : Instr} (hflag : ∀ f b, i ≠ .setFlag f b) (hpair : ∀ v, i ≠ .setPair .af v)
    (hbyte : ∀ v, i ≠ .setR8 .f v) (hpow : ∀ v, i ≠ .powerUp v) (c : Cells) : byteAfter i c .f = c.f := by
  cases i with
  | setR8 q v =>
    have h : Reg8.f ≠ q := fun e => hbyte v (by rw [e])
    simp [byteAfter, h, Cells.read8]
  | setPair p v =>
    have h : p ≠ .af := fun e => hpair v (by rw [e])
    have hlo : Reg8.f ≠ pairLo p := fun e => h (pairLo_eq_f.mp e.symm)
    simp [byteAfter, (pairHi_ne_f p).symm, hlo, Cells.read8]
  | setFlag f b => exact absurd rfl (hflag f b)
  | powerUp v => exact absurd rfl (hpow v)
  | _ => rfl

/-- No 8-bit cell after a command depends on PC or SP. -/
theorem byteAfter_of_other_sp_pc (i : Instr) (c : Cells) (x y : Word) (r : Reg8) :
    byteAfter i { c with pc := x, sp := y } r = byteAfter i c r := by
  have hread : ({ c with pc := x, sp := y } : Cells).read8 r = c.read8 r := by cases r <;> rfl
  cases i <;> simp only [byteAfter, hread]

/-- With other values in PC and SP a command leaves the same eight 8-bit cells. -/
theorem cellsAfter_of_other_sp_pc (i : Instr) (c : Cells) (x y : Word) :
    { cellsAfter i { c with pc := x, sp := y } with pc := (cellsAfter i c).pc, sp := (cellsAfter i c).sp } =
      cellsAfter i c := by
  have h8 : ∀ r, (cellsAfter i { c with pc := x, sp := y }).read8 r = (cellsAfter i c).read8 r := fun r => by
    rw [read8_cellsAfter, read8_cellsAfter, byteAfter_of_other_sp_pc]
  apply Cells.ext_reads
  · intro r
    rw [← h8 r]
    cases r <;> rfl
  · intro r
    cases r <;> rfl

/-! ## The power-up table -/

/-- A table is legal exactly when every variant's F has a zero low nibble (10_state.md R33). -/
theorem tableLegal_iff {t : PowerUpTable} : tableLegal t = true ↔ ∀ v, (powerUpCells t v).Inv := by
  constructor
  · exact Cells.inv_powerUpCells
  · intro h
    simp [tableLegal, show ∀ v, (t v).f &&& 0x0F#8 = 0#8 from h]

/-- The configured table is the one of 10_state.md R33. -/
theorem powerUpTable_current (v : Variant) : Config.current.powerUpTable v = powerUpRow (powerUpA v) := by
  cases v <;> rfl

/-- The pairs of the table (10_state.md R34). -/
theorem pair_powerUpRow (a : Byte) : (powerUpRow a).pair .af = a ++ 0xB0#8 ∧ (powerUpRow a).pair .bc = 0x0013#16 ∧
    (powerUpRow a).pair .de = 0x00D8#16 ∧ (powerUpRow a).pair .hl = 0x014D#16 := by
  simp [powerUpRow, Cells.pair, pairHi, pairLo, Cells.read8]

/-- The flags of the table: all but NF are set (10_state.md R34). -/
theorem flag_powerUpRow (a : Byte) (f : Flag) : (powerUpRow a).flag f = decide (f ≠ .nf) := by
  change flagTest 0xB0#8 f = _
  cases f <;> decide

/-! ## One step as one command -/

/-- The command a rising edge performs: an idle edge acts as `nop`, a reset edge as `power_up`, and a command edge as the
decoded word (30_encoding.md R60; 70_reset_and_hazards.md R150). -/
def Presented.instr : Presented → Except Reserved Instr
  | .idle => .ok .nop
  | .reset v => .ok (.powerUp v)
  | .command w => decode w

/-- What the next edge presents depends on the port alone. -/
theorem presented_takeEdge_congr {s t : State} (h : s.port = t.port) : (takeEdge s).1 = (takeEdge t).1 := by
  cases ht : t.port with
  | nil => rw [takeEdge_nil s (h.trans ht), takeEdge_nil t ht]
  | cons e es => rw [takeEdge_cons s e (h.trans ht), takeEdge_cons t e ht]

/-- A step performs the command of its edge on the state without the edge. -/
theorem step_of_instr_ok {s : State} {i : Instr} (h : (takeEdge s).1.instr = .ok i) :
    step s = exec i { s with port := s.port.tail } := by
  obtain ⟨hp, hs⟩ | ⟨v, hp, hs⟩ | ⟨w, j, hp, hd, hs⟩ | ⟨w, why, hp, hd, hs⟩ := step_cases s
  · obtain rfl : Instr.nop = i := by simpa [hp, Presented.instr] using h
    rw [hs, exec_eq]; rfl
  · obtain rfl : Instr.powerUp v = i := by simpa [hp, Presented.instr] using h
    rw [hs, exec_eq]; rfl
  · obtain rfl : j = i := by simpa [hp, Presented.instr, hd] using h
    exact hs
  · simp [hp, Presented.instr, hd] at h

/-- A step at a reserved word is refused (60_exceptions.md R134). -/
theorem step_of_instr_error {s : State} {why : Reserved} (h : (takeEdge s).1.instr = .error why) :
    step s = .refused (.reservedWord why) := by
  obtain ⟨hp, -⟩ | ⟨v, hp, -⟩ | ⟨w, j, hp, hd, -⟩ | ⟨w, why', hp, hd, hs⟩ := step_cases s
  · simp [hp, Presented.instr] at h
  · simp [hp, Presented.instr] at h
  · simp [hp, Presented.instr, hd] at h
  · obtain rfl : why' = why := by simpa [hp, Presented.instr, hd] using h
    exact hs

/-- Every step that goes on is the step of one command. -/
theorem exists_instr_of_step {s t : State} (h : step s = .next t) :
    ∃ i, (takeEdge s).1.instr = .ok i ∧ exec i { s with port := s.port.tail } = .next t := by
  cases hi : (takeEdge s).1.instr with
  | ok i => exact ⟨i, rfl, (step_of_instr_ok hi).symm.trans h⟩
  | error why => simp [step_of_instr_error hi] at h

/-- A step depends on the cells and the port, not on the result shown before it (10_state.md R29). -/
theorem step_congr {s t : State} (hc : s.cells = t.cells) (hp : s.port = t.port) : step s = step t := by
  have hpres := presented_takeEdge_congr hp
  cases hi : (takeEdge t).1.instr with
  | ok i => rw [step_of_instr_ok hi, step_of_instr_ok (hpres ▸ hi), exec_eq, exec_eq]; simp [hc, hp]
  | error why => rw [step_of_instr_error hi, step_of_instr_error (hpres ▸ hi)]

theorem State.inv_exec {i : Instr} {s t : State} (hs : s.Inv) (h : exec i s = .next t) : t.Inv := by
  obtain rfl := exec_next.mp h
  exact Cells.inv_cellsAfter hs i

theorem State.inv_step {s t : State} (hs : s.Inv) (h : step s = .next t) : t.Inv := by
  obtain ⟨i, -, hi⟩ := exists_instr_of_step h
  exact State.inv_exec (s := { s with port := s.port.tail }) hs hi

/-! ## Runs -/

theorem run_zero (s : State) : Host.Core.run Sys2Proof.core 0 s = .next s := rfl

/-- A run that goes on takes its first step and runs on from there. -/
theorem run_succ_next {k : Nat} {s t : State} (h : Host.Core.run Sys2Proof.core (k + 1) s = .next t) :
    ∃ u, step s = .next u ∧ Host.Core.run Sys2Proof.core k u = .next t := by
  simp only [Host.Core.run] at h
  split at h
  · exact ⟨_, ‹_›, h⟩
  · cases h
  · cases h

/-- A run of at least one step depends on its start only through the first step. -/
theorem run_succ_congr (k : Nat) {s t : State} (h : step s = step t) :
    Host.Core.run Sys2Proof.core (k + 1) s = Host.Core.run Sys2Proof.core (k + 1) t := by
  have h' : Sys2Proof.core.step s = Sys2Proof.core.step t := h
  simp only [Host.Core.run, h']

/-- What every step keeps, every run keeps. -/
theorem run_induction {P : State → Prop} (hstep : ∀ s t, P s → step s = .next t → P t) (k : Nat) :
    ∀ {s t : State}, P s → Host.Core.run Sys2Proof.core k s = .next t → P t := by
  induction k with
  | zero =>
    intro s t hs h
    rw [run_zero] at h
    cases h
    exact hs
  | succ k ih =>
    intro s t hs h
    obtain ⟨u, hu, ht⟩ := run_succ_next h
    exact ih (hstep s u hs hu) ht

theorem State.inv_powerUp (v : Variant) : (State.powerUp v).Inv :=
  Cells.inv_powerUpCells tableLegal_current v

/-! ## Several machines side by side -/

section systems

variable {n : Nat} (y : System n) {z : System n}

/-- A step of the system is a step of the machine it names. -/
theorem System.step_next {k : Fin n} (h : y.step k = .next z) :
    ∃ t, Sys2Proof.Machine.step y.inst[k] = .next t ∧ z = { inst := y.inst.set k t } := by
  unfold System.step at h
  split at h
  · exact ⟨_, ‹_›, by simpa using h.symm⟩
  · cases h
  · cases h

/-- A step of one machine leaves the others alone (60_exceptions.md R142). -/
theorem System.inst_step_of_ne {j k : Fin n} (hne : k ≠ j) (h : y.step k = .next z) : z.inst[j] = y.inst[j] := by
  obtain ⟨t, -, rfl⟩ := y.step_next h
  exact Vector.getElem_set_ne k.isLt j.isLt (fun e => hne (Fin.ext e))

theorem System.inst_duplicate_dst (src dst : Fin n) : (y.duplicate src dst).inst[dst] = y.inst[src] :=
  Vector.getElem_set_self dst.isLt

theorem System.inst_duplicate_of_ne {src dst j : Fin n} (h : dst ≠ j) : (y.duplicate src dst).inst[j] = y.inst[j] :=
  Vector.getElem_set_ne dst.isLt j.isLt (fun e => h (Fin.ext e))

end systems

end Sys2Proof.Machine
end

section
/-! The statements on the state (10_state.md), each settled from the lemmas above. -/

namespace Sys2Proof.Proofs

open Sys2Proof.Machine Sys2Proof.Claims

/-- Settles O43: the invariant is kept by every command, and every step is the step of one command. -/
theorem everyStepKeepsTheLowNibbleOfFZero : Obligations.EveryStepKeepsTheLowNibbleOfFZero :=
  ⟨fun _ _ _ => State.inv_exec, fun _ _ => State.inv_step⟩

/-- Settles O44, by induction on the number of steps from a state that meets the invariant. -/
theorem everyRunKeepsTheLowNibbleOfFZero : Obligations.EveryRunKeepsTheLowNibbleOfFZero := by
  have hrun : ∀ k s t, s.Inv → Host.Core.run Sys2Proof.core k s = .next t → t.Inv :=
    fun k s t => run_induction (P := State.Inv) (fun _ _ => State.inv_step) k
  exact ⟨hrun, fun k v port t => hrun k { State.powerUp v with port := port } t (State.inv_powerUp v)⟩

/-- Settles O22: the cells after a command, read back. -/
theorem everyCellHoldsTheLastValueWritten : Obligations.EveryCellHoldsTheLastValueWritten := by
  intro i s t h
  obtain rfl := exec_next.mp h
  exact ⟨read8_cellsAfter i s.cells, read16_cellsAfter i s.cells⟩

/-- Settles O28: a pair is the concatenation of its cells, and a flag is one bit of F. -/
theorem viewsAreComputedFromTheCells : Obligations.ViewsAreComputedFromTheCells := by
  refine ⟨fun c p => ?_, fun c => ⟨rfl, rfl, rfl, rfl⟩, fun r => ?_, fun p => ?_, fun c => ?_⟩
  · simpa [Cells.pair] using
      BitVec.setWidth_append_eq_shiftLeft_setWidth_or (w'' := 16) (b := c.read8 (pairHi p)) (b' := c.read8 (pairLo p))
  · exact ⟨pairWith r, eq_pairHi_or_eq_pairLo_iff.mpr rfl, fun q => eq_pairHi_or_eq_pairLo_iff.mp⟩
  · cases p <;> decide
  · exact ⟨c.flag_eq_getLsbD .zf, c.flag_eq_getLsbD .nf, c.flag_eq_getLsbD .hf, c.flag_eq_getLsbD .cf⟩

/-- Settles O30: F after each kind of command, seen through the flags. -/
theorem flagsAreWrittenOnlyByFourCommands : Obligations.FlagsAreWrittenOnlyByFourCommands := by
  refine ⟨?others, ?setFlag, ?masked, ?powerUp, ?getFlag, ?readers⟩
  case others =>
    intro i s t h hflag hpair hbyte hpow
    obtain rfl := exec_next.mp h
    exact (read8_cellsAfter i s.cells .f).trans (byteAfter_f_of_not_written hflag hpair hbyte hpow _)
  case setFlag =>
    intro f b g s t h
    obtain rfl := exec_next.mp h
    exact s.cells.flag_setFlag f g b
  case masked =>
    rintro v g s t (h | h)
    · obtain rfl := exec_next.mp h
      exact flagTest_lowByte_and_f0 v g
    · obtain rfl := exec_next.mp h
      exact flagTest_lowByte_and_f0 v g
  case powerUp =>
    intro v g s t h
    obtain rfl := exec_next.mp h
    simp only [cellsAfter, powerUpCells, powerUpTable_current]
    exact flag_powerUpRow (powerUpA v) g
  case getFlag =>
    intro g s t h
    obtain rfl := exec_next.mp h
    rfl
  case readers =>
    rintro g s t (h | h)
    · obtain rfl := exec_next.mp h
      exact (s.cells.getLsbD_pair_low .af (by omega)).trans (s.cells.flag_eq_getLsbD g).symm
    · obtain rfl := exec_next.mp h
      rw [Cells.flag_eq_getLsbD]
      simp [resultOf, State.resp, Result.resp, Cells.read8, show 7 - flagNumber g < 16 by omega]

/-- Settles O33: the low cell of a pair after either write, and 0x000F as the value that tells the masks apart. -/
theorem lowByteMasksStayDifferent : Obligations.LowByteMasksStayDifferent := by
  have hset : ∀ p v s t, p ≠ .af → exec (.setPair p v) s = .next t →
      t.cells.read8 (pairLo p) = v.extractLsb' 0 8 := by
    intro p v s t hp h
    obtain rfl := exec_next.mp h
    simp [cellsAfter, pairLowMask_of_ne_af hp, lowByte]
  have haf : ∀ v s t, exec (.setPair .af v) s = .next t → t.cells.f = v.extractLsb' 0 8 &&& 0xF0#8 := by
    intro v s t h
    obtain rfl := exec_next.mp h
    rfl
  refine ⟨hset, fun p v s t hp h => ?_, haf, fun p hp => ⟨0x000F#16, fun s t t' h h' => ?_⟩⟩
  · obtain rfl := exec_next.mp h
    simp [cellsAfter, byteWriteMask_pairLo, pairLowMask_of_ne_af hp, lowByte]
  · rw [haf _ _ _ h, hset _ _ _ _ hp h']
    decide

/-- Settles O35: PC and SP have two writers, and no 8-bit cell after a command is computed from them. -/
theorem pcAndSpSteerNothing : Obligations.PcAndSpSteerNothing := by
  have hkept : ∀ i s t r, exec i s = .next t → (∀ v, i ≠ .setR16 r v) → (∀ v, i ≠ .powerUp v) →
      t.cells.read16 r = s.cells.read16 r := by
    intro i s t r h hset hpow
    obtain rfl := exec_next.mp h
    exact (read16_cellsAfter i s.cells r).trans (wordAfter_of_not_written hset hpow _)
  refine ⟨fun i s t h => ⟨hkept i s t .pc h, hkept i s t .sp h⟩, fun s x y t h => ?_⟩
  obtain ⟨i, hi, ht⟩ := exists_instr_of_step h
  obtain rfl := exec_next.mp ht
  refine ⟨_, (step_of_instr_ok (i := i) ?_).trans (exec_eq i _), rfl, cellsAfter_of_other_sp_pc i s.cells x y⟩
  rw [presented_takeEdge_congr (t := s)]
  · exact hi
  · rfl

/-- Settles O47: the first step already forgets the result. -/
theorem behaviourIsAFunctionOfCellsAndPort : Obligations.BehaviourIsAFunctionOfCellsAndPort :=
  fun k _ _ hc hp => run_succ_congr k (step_congr hc hp)

/-- Settles O51: duplication writes one machine, and so does a step. -/
theorem duplicatesAreIndependent : Obligations.DuplicatesAreIndependent := by
  intro n y z src dst hne
  refine ⟨y.inst_duplicate_dst src dst, fun h => ?_, fun h => ?_⟩
  · rw [System.inst_step_of_ne _ hne.symm h, y.inst_duplicate_of_ne hne.symm]
  · rw [System.inst_step_of_ne _ hne h, y.inst_duplicate_dst]

/-- Settles O40: the power-up cells are the row of the spec's table, and a reset edge loads them. -/
theorem powerUpStateHoldsTheTable : Obligations.PowerUpStateHoldsTheTable := by
  have hcells : ∀ v, (State.powerUp v).cells = powerUpRow (powerUpA v) := powerUpTable_current
  refine ⟨fun v => ⟨hcells v, powerUpTable_current v⟩, fun v => ?_, fun v => ⟨rfl, rfl⟩, fun v s t h => ?_, rfl,
    tableLegal_current, tableLegal_iff.mp tableLegal_current⟩
  · rw [hcells]
    obtain ⟨haf, hbc, hde, hhl⟩ := pair_powerUpRow (powerUpA v)
    exact ⟨haf, hbc, hde, hhl,
      flag_powerUpRow _ .zf, flag_powerUpRow _ .nf, flag_powerUpRow _ .hf, flag_powerUpRow _ .cf⟩
  · have hi : (takeEdge { s with port := Edge.resetAs v :: s.port }).1.instr = .ok (.powerUp v) := by
      simp [takeEdge, Presented.instr]
    rw [step_of_instr_ok hi] at h
    obtain rfl := exec_next.mp h
    exact ⟨rfl, rfl, rfl⟩

/-- Settles O42: a table's one constraint is the invariant of the cells it gives. -/
theorem anyLegalTableGivesTheInvariant : Obligations.AnyLegalTableGivesTheInvariant :=
  fun _ => tableLegal_iff

end Sys2Proof.Proofs
end

section
/-! SUPPORT. Facts about commands that the statements on accesses (20_memory.md) share: the columns of R44 as frame and
dependence of the tables `byteAfter` and `wordAfter`, a command given twice, the bits a flag write keeps, a pair read
back, and a run over presented commands. -/

namespace Sys2Proof.Machine

open Sys2Proof.Claims

/-! ## The columns of the table of access widths (20_memory.md R44) -/

/-- A command leaves every 8-bit cell outside "cells written" as it was. -/
theorem byteAfter_of_not_writes8 {i : Instr} {r : Reg8} (h : ¬ writes8 i r) (c : Cells) :
    byteAfter i c r = c.read8 r := by
  cases i with
  | setR8 q v => exact if_neg h
  | setPair p v =>
    obtain ⟨hhi, hlo⟩ := not_or.mp h
    exact (if_neg hhi).trans (if_neg hlo)
  | setFlag f b => exact if_neg h
  | powerUp v => exact absurd trivial h
  | _ => rfl

/-- A command leaves every 16-bit cell outside "cells written" as it was. -/
theorem wordAfter_of_not_writes16 {i : Instr} {r : Reg16} (h : ¬ writes16 i r) (c : Cells) :
    wordAfter i c r = c.read16 r := by
  cases i with
  | setR16 q v => exact if_neg h
  | powerUp v => exact absurd trivial h
  | _ => rfl

/-- What a command other than `set_flag` writes to an 8-bit cell depends on no cell (20_memory.md R47). -/
theorem byteAfter_congr_of_writes8 {i : Instr} {r : Reg8} (hflag : ∀ f b, i ≠ .setFlag f b) (h : writes8 i r)
    (c d : Cells) : byteAfter i c r = byteAfter i d r := by
  cases i with
  | setR8 q v => exact (if_pos h).trans (if_pos h).symm
  | setPair p v =>
    obtain rfl | rfl := h
    · simp [byteAfter]
    · simp [byteAfter]
  | setFlag f b => exact absurd rfl (hflag f b)
  | powerUp v => rfl
  | _ => exact h.elim

/-- What a command writes to a 16-bit cell depends on no cell (20_memory.md R47). -/
theorem wordAfter_congr_of_writes16 {i : Instr} {r : Reg16} (h : writes16 i r) (c d : Cells) :
    wordAfter i c r = wordAfter i d r := by
  cases i with
  | setR16 q v => exact (if_pos h).trans (if_pos h).symm
  | powerUp v => rfl
  | _ => exact h.elim

section reads

variable {i : Instr} {c d : Cells} (h8 : ∀ r, reads8 i r → c.read8 r = d.read8 r)
  (h16 : ∀ r, reads16 i r → c.read16 r = d.read16 r)

include h8 in
/-- What a command writes to an 8-bit cell depends on "cells read" alone. -/
theorem byteAfter_congr_of_reads8 {r : Reg8} (h : writes8 i r) : byteAfter i c r = byteAfter i d r := by
  cases i with
  | setFlag f b =>
    have hf : c.f = d.f := h8 .f rfl
    obtain rfl : r = .f := h
    simp [byteAfter, hf]
  | _ => exact byteAfter_congr_of_writes8 (by simp) h c d

include h8 h16 in
/-- The result of a command depends on "cells read" alone. -/
theorem resultOf_congr_of_reads : resultOf i c = resultOf i d := by
  cases i with
  | getR8 r => simp [resultOf, h8 r rfl]
  | getR16 r => simp [resultOf, h16 r rfl]
  | getPair p => simp [resultOf, Cells.pair, h8 (pairHi p) (.inl rfl), h8 (pairLo p) (.inr rfl)]
  | getFlag f => simp [resultOf, Cells.flag, show c.f = d.f from h8 .f rfl]
  | _ => rfl

end reads

/-- A result has the width of its command (30_encoding.md R62, R74). -/
theorem resultWidth_resultOf (i : Instr) (c : Cells) : (resultOf i c).map resultWidth = returnWidth i := by
  cases i <;> rfl

/-- The byte write to F takes four bits of the value (40_reg_access.md R92). -/
theorem lowByte_and_f0 (v : Word) : lowByte v &&& 0xF0#8 = v.extractLsb' 4 4 ++ 0#4 := by
  have h : lowByte v = v.extractLsb' 4 4 ++ v.extractLsb' 0 4 :=
    (BitVec.extractLsb'_append_extractLsb'_eq_extractLsb' (start₁ := 0) (len₁ := 4) rfl).symm
  rw [h, show 0xF0#8 = BitVec.allOnes 4 ++ 0#4 from rfl, BitVec.and_append, BitVec.and_allOnes, BitVec.and_zero]

/-! ## Commands that write nothing (20_memory.md R46) -/

/-- The commands that write nothing are those that return a value, and `nop`. -/
theorem readsOnly_iff {i : Instr} : readsOnly i ↔ (∃ n, returnWidth i = some n) ∨ i = .nop := by
  cases i with
  | nop => simp [readsOnly, writes8, writes16]
  | getR8 _ => simp [readsOnly, writes8, writes16, returnWidth]
  | getR16 _ => simp [readsOnly, writes8, writes16, returnWidth]
  | getPair _ => simp [readsOnly, writes8, writes16, returnWidth]
  | getFlag _ => simp [readsOnly, writes8, writes16, returnWidth]
  | setR8 _ _ => simp [readsOnly, writes8, returnWidth]
  | setR16 _ _ => simp [readsOnly, writes16, returnWidth]
  | setPair p _ => exact iff_of_false (fun h => h.1 (pairHi p) (.inl rfl)) (by simp [returnWidth])
  | setFlag _ _ => simp [readsOnly, writes8, returnWidth]
  | powerUp _ => exact iff_of_false (fun h => h.1 .a trivial) (by simp [returnWidth])

theorem cellsAfter_of_readsOnly {i : Instr} (h : readsOnly i) (c : Cells) : cellsAfter i c = c := by
  obtain ⟨h8, h16⟩ := h
  apply Cells.ext_reads
  · intro r; rw [read8_cellsAfter, byteAfter_of_not_writes8 (h8 r)]
  · intro r; rw [read16_cellsAfter, wordAfter_of_not_writes16 (h16 r)]

/-! ## A command given twice (20_memory.md R46, R47) -/

theorem Cells.setFlag_idem (c : Cells) (f : Flag) (b : Bool) : (c.setFlag f b).setFlag f b = c.setFlag f b := by
  simp [Cells.setFlag]

/-- A command given twice leaves the cells it leaves given once: what it writes is either written again or, for
`set_flag`, already there. -/
theorem cellsAfter_idem (i : Instr) (c : Cells) : cellsAfter i (cellsAfter i c) = cellsAfter i c := by
  by_cases hflag : ∃ f b, i = .setFlag f b
  · obtain ⟨f, b, rfl⟩ := hflag
    exact c.setFlag_idem f b
  · have hne : ∀ f b, i ≠ .setFlag f b := fun f b e => hflag ⟨f, b, e⟩
    apply Cells.ext_reads
    · intro r
      by_cases hw : writes8 i r
      · rw [read8_cellsAfter, read8_cellsAfter, byteAfter_congr_of_writes8 hne hw]
      · rw [read8_cellsAfter, byteAfter_of_not_writes8 hw]
    · intro r
      by_cases hw : writes16 i r
      · rw [read16_cellsAfter, read16_cellsAfter, wordAfter_congr_of_writes16 hw]
      · rw [read16_cellsAfter, wordAfter_of_not_writes16 hw]

/-- A command that returns a value reads the cells it left as it found them. -/
theorem resultOf_cellsAfter (i : Instr) (c : Cells) : resultOf i (cellsAfter i c) = resultOf i c := by
  cases i <;> rfl

theorem exec_idem {i : Instr} {s t : State} (h : exec i s = .next t) : exec i t = .next t := by
  obtain rfl := exec_next.mp h
  rw [exec_eq]
  simp only [cellsAfter_idem, resultOf_cellsAfter]

/-! ## The bits a flag write keeps -/

theorem flagMask_eq_twoPow (f : Flag) : flagMask f = BitVec.twoPow 8 (7 - flagNumber f) := by cases f <;> rfl

/-- A flag write keeps every bit of F but the flag's own (42_flag_access.md R112). -/
theorem getLsbD_flagWrite_of_ne {f : Flag} {n : Nat} (h : n ≠ 7 - flagNumber f) (x : Byte) (b : Bool) :
    (flagWrite x f b).getLsbD n = x.getLsbD n := by
  have hmask : (flagMask f).getLsbD n = false := by
    rw [flagMask_eq_twoPow, BitVec.getLsbD_twoPow, decide_eq_false h.symm, Bool.and_false]
  cases b with
  | true => simp [flagWrite, hmask]
  | false => simpa [flagWrite, hmask] using BitVec.lt_of_getLsbD

/-! ## A pair written by bytes and read back (20_memory.md R42) -/

theorem pairLowMask_eq_ite (p : Pair) : pairLowMask p = if p = .af then 0xF0#8 else 0xFF#8 := by cases p <;> rfl

theorem Cells.read8_setByte_pairHi (c : Cells) (p : Pair) (v : Word) :
    (c.setByte (pairHi p) v).read8 (pairHi p) = lowByte v := by
  simp [byteWriteMask_of_ne_f]

theorem Cells.read8_setByte_pairLo (c : Cells) (p : Pair) (v : Word) :
    (c.setByte (pairLo p) v).read8 (pairLo p) = lowByte v &&& pairLowMask p := by
  simp [byteWriteMask_pairLo]

theorem Cells.pair_setByte_pairHi_pairLo (c : Cells) (p : Pair) (a b : Word) :
    ((c.setByte (pairHi p) a).setByte (pairLo p) b).pair p = lowByte a ++ (lowByte b &&& pairLowMask p) := by
  rw [Cells.pair, Cells.read8_setByte_pairLo, Cells.read8_setByte_of_ne _ _ (pairHi_ne_pairLo p),
    Cells.read8_setByte_pairHi]

theorem Cells.pair_setByte_pairLo_pairHi (c : Cells) (p : Pair) (a b : Word) :
    ((c.setByte (pairLo p) b).setByte (pairHi p) a).pair p = lowByte a ++ (lowByte b &&& pairLowMask p) := by
  rw [Cells.pair, Cells.read8_setByte_pairHi, Cells.read8_setByte_of_ne _ _ (pairLo_ne_pairHi p),
    Cells.read8_setByte_pairLo]

/-! ## Presented commands (20_memory.md R50) -/

/-- The first command of a sequence runs, and the rest from where it leaves off. -/
theorem execSeq_cons (i : Instr) (is : List Instr) (s : State) :
    execSeq (i :: is) s = execSeq is { s with cells := cellsAfter i s.cells, result := resultOf i s.cells } := by
  rw [execSeq, exec_eq]

/-- A selector code of up to four bits stands in the low bits of SEL. -/
theorem extractLsb'_low_setWidth {n : Nat} (hn : n ≤ 4) (x : BitVec n) : (x.setWidth 4).extractLsb' 0 n = x := by
  rw [← BitVec.setWidth_eq_extractLsb' hn, BitVec.setWidth_setWidth_of_le _ hn, BitVec.setWidth_eq]

/-- The bits of SEL above a selector code are zero (30_encoding.md R73). -/
theorem extractLsb'_high_setWidth {n m : Nat} (x : BitVec n) : (x.setWidth 4).extractLsb' n m = 0#m := by
  apply BitVec.eq_of_getLsbD_eq
  intro k _
  simp

/-- The decoder reads back every encoded command (30_encoding.md R73). -/
theorem decode_encode (i : Instr) : decode (encode i) = .ok i := by
  rw [encode, decode_packWord]
  cases i with
  | nop => rfl
  | setFlag f b => cases f <;> cases b <;> rfl
  | _ => simp [Instr.op, Instr.sel, Instr.data, decodeFields, extractLsb'_low_setWidth, extractLsb'_high_setWidth]

/-- One step takes the first presented command. -/
theorem step_present_cons (i : Instr) (is : List Instr) (s : State) :
    step (s.present (i :: is)) =
      .next ({ s with cells := cellsAfter i s.cells, result := resultOf i s.cells }.present is) := by
  have hi : (takeEdge (s.present (i :: is))).1.instr = .ok i := by
    rw [State.present_cons, takeEdge_cons _ _ rfl]
    exact decode_encode i
  rw [step_of_instr_ok hi, exec_eq]
  rfl

/-- A run goes on after a first step that succeeds. -/
theorem run_succ_of_step {s t : State} (h : step s = .next t) (k : Nat) :
    Host.Core.run Sys2Proof.core (k + 1) s = Host.Core.run Sys2Proof.core k t := by
  have h' : Sys2Proof.core.step s = .next t := h
  simp only [Host.Core.run, h']

end Sys2Proof.Machine
end

section
/-! The statements on accesses (20_memory.md), each settled from the lemmas above. -/

namespace Sys2Proof.Proofs

open Sys2Proof.Machine Sys2Proof.Claims

/-- Settles O23: the columns "cells written" and "cells read" bound the tables of the cells after a command. -/
theorem commandsReadAndWriteOnlyTheirCells : Obligations.CommandsReadAndWriteOnlyTheirCells := by
  refine ⟨?frame, ?dependence, ?width, ?fourBits⟩
  case frame =>
    intro i s t h
    obtain rfl := exec_next.mp h
    refine ⟨fun r hr => ?_, fun r hr => ?_, rfl⟩
    · exact (read8_cellsAfter i s.cells r).trans (byteAfter_of_not_writes8 hr _)
    · exact (read16_cellsAfter i s.cells r).trans (wordAfter_of_not_writes16 hr _)
  case dependence =>
    intro i s s' t t' h8 h16 h h'
    obtain rfl := exec_next.mp h
    obtain rfl := exec_next.mp h'
    refine ⟨resultOf_congr_of_reads h8 h16, fun r hr => ?_, fun r hr => ?_⟩
    · simpa only [read8_cellsAfter] using byteAfter_congr_of_reads8 h8 hr
    · simpa only [read16_cellsAfter] using wordAfter_congr_of_writes16 hr _ _
  case width =>
    intro i s t h
    obtain rfl := exec_next.mp h
    exact resultWidth_resultOf i s.cells
  case fourBits =>
    intro v w s h
    have hbyte : lowByte v &&& byteWriteMask .f = lowByte w &&& byteWriteMask .f := by
      rw [byteWriteMask, lowByte_and_f0, lowByte_and_f0, h]
    rw [exec_eq, exec_eq]
    simp only [cellsAfter, resultOf, Cells.setByte, hbyte]

/-- Settles O24: a command that writes nothing leaves the cells, and every command is idempotent. -/
theorem readsHaveNoSideEffect : Obligations.ReadsHaveNoSideEffect := by
  refine ⟨fun i => readsOnly_iff.symm, fun i s t hr h => ?_⟩
  have hagain := exec_idem h
  obtain rfl := exec_next.mp h
  exact ⟨cellsAfter_of_readsOnly hr s.cells, rfl, hagain⟩

/-- Settles O25: idempotence, and what the written values depend on. -/
theorem writesAreIdempotent : Obligations.WritesAreIdempotent := by
  refine ⟨fun i s t _ => exec_idem, fun i s s' t t' hflag h h' => ?_, fun f b s t h n hn => ?_⟩
  · obtain rfl := exec_next.mp h
    obtain rfl := exec_next.mp h'
    refine ⟨fun r hr => ?_, fun r hr => ?_⟩
    · simpa only [read8_cellsAfter] using byteAfter_congr_of_writes8 hflag hr _ _
    · simpa only [read16_cellsAfter] using wordAfter_congr_of_writes16 hr _ _
  · obtain rfl := exec_next.mp h
    exact getLsbD_flagWrite_of_ne hn s.cells.f b

/-- Settles O26: each access reads the cells the other one wrote. -/
theorem mixedWidthAccessesSeeEachOther : Obligations.MixedWidthAccessesSeeEachOther := by
  refine ⟨?high, ?low, ?pair, ?flag⟩
  case high =>
    intro p v s t u h h'
    obtain rfl := exec_next.mp h
    obtain rfl := exec_next.mp h'
    exact congrArg (some ∘ Result.byte) (s.cells.read8_setPair_hi v p)
  case low =>
    intro p v s t u h h'
    obtain rfl := exec_next.mp h
    obtain rfl := exec_next.mp h'
    rw [← pairLowMask_eq_ite]
    exact congrArg (some ∘ Result.byte) (s.cells.read8_setPair_lo v p)
  case pair =>
    intro p a b s t h
    rw [← pairLowMask_eq_ite]
    simp only [execSeq_cons] at h
    obtain h | h := h
    · cases h
      exact congrArg (some ∘ Result.word) (s.cells.pair_setByte_pairHi_pairLo p a b)
    · cases h
      exact congrArg (some ∘ Result.word) (s.cells.pair_setByte_pairLo_pairHi p a b)
  case flag =>
    intro f b s t u h h'
    obtain ⟨-, hwrite, -, -, -, hread⟩ := flagsAreWrittenOnlyByFourCommands
    rw [hread f t u h'.symm, hwrite f b f s t h, if_pos rfl]

/-- Settles O46, by induction on the commands before the point reached: each is one step. -/
theorem runIsTheFoldOfTheCommands : Obligations.RunIsTheFoldOfTheCommands := by
  intro is js
  induction is with
  | nil => intro s; rfl
  | cons i is ih =>
    intro s
    rw [execSeq_cons]
    exact (run_succ_of_step (step_present_cons i (is ++ js) s) _).trans (ih _)

end Sys2Proof.Proofs
end

section
/-! SUPPORT. Facts about command words that the statements on the encoding (30_encoding.md) share. -/

namespace Sys2Proof.Machine

open Sys2Proof.Claims

/-! ## Fields (R61) -/

theorem packWord_and (o o' s s' : BitVec 4) (d d' : Word) :
    packWord o s d &&& packWord o' s' d' = packWord (o &&& o') (s &&& s') (d &&& d') :=
  BitVec.and_append.trans (congrArg (· ++ (d &&& d')) BitVec.and_append)

theorem packWord_inj {o o' s s' : BitVec 4} {d d' : Word} :
    packWord o s d = packWord o' s' d' ↔ o = o' ∧ s = s' ∧ d = d' := by
  constructor
  · intro h
    exact ⟨by simpa using congrArg opOf h, by simpa using congrArg selOf h, by simpa using congrArg dataOf h⟩
  · rintro ⟨rfl, rfl, rfl⟩
    rfl

theorem toNat_packWord (o s : BitVec 4) (d : Word) :
    (packWord o s d).toNat = 0x100000 * o.toNat + 0x10000 * s.toNat + d.toNat := by
  rw [packWord, BitVec.toNat_append, BitVec.toNat_append, ← Nat.shiftLeft_add_eq_or_of_lt s.isLt,
    ← Nat.shiftLeft_add_eq_or_of_lt d.isLt, Nat.shiftLeft_eq, Nat.shiftLeft_eq]
  omega

/-- A vector whose upper bits are zero is its low part zero-extended. -/
theorem setWidth_extractLsb'_low {w n m : Nat} {x : BitVec w} (hw : n + m = w) (h : x.extractLsb' n m = 0#m) :
    (x.extractLsb' 0 n).setWidth w = x := by
  subst hw
  apply BitVec.eq_of_getLsbD_eq
  intro k hk
  by_cases hn : k < n
  · simp [hn, hk]
  · have hbit := congrArg (BitVec.getLsbD · (k - n)) h
    simp only [BitVec.getLsbD_extractLsb', BitVec.getLsbD_zero] at hbit
    have hm : k - n < m := by omega
    have hk' : n + (k - n) = k := by omega
    rw [hk', decide_eq_true hm, Bool.true_and] at hbit
    simp [hn, hbit]

theorem extractLsb'_one_eq_ofBool {w : Nat} (x : BitVec w) (k : Nat) :
    x.extractLsb' k 1 = BitVec.ofBool (x.getLsbD k) := by
  ext j hj
  obtain rfl : j = 0 := by omega
  simp

/-- A DATA field whose upper fifteen bits are zero is its boolean zero-extended (R69, R73). -/
theorem setWidth_ofBool_getLsbD {d : Word} (h : d.extractLsb' 1 15 = 0#15) :
    (BitVec.ofBool (d.getLsbD 0)).setWidth 16 = d := by
  rw [← extractLsb'_one_eq_ofBool, setWidth_extractLsb'_low rfl h]

/-- A value below 256 leaves the high byte of DATA zero (R73). -/
theorem highByte_ofNat {n : Nat} (hn : n < 256) : highByte (BitVec.ofNat 16 n) = 0#8 := by
  apply BitVec.eq_of_toNat_eq
  rw [highByte, BitVec.extractLsb'_toNat, Nat.shiftRight_eq_div_pow, BitVec.toNat_ofNat]
  simp only [BitVec.toNat_ofNat]
  omega

/-! ## Selector codes (R63 to R67) -/

theorem toNat_code_reg8 (r : Reg8) : r.code.toNat = reg8Number r := by cases r <;> rfl
theorem toNat_code_reg16 (r : Reg16) : r.code.toNat = reg16Number r := by cases r <;> rfl
theorem toNat_code_pair (p : Pair) : p.code.toNat = pairNumber p := by cases p <;> rfl
theorem toNat_code_flag (f : Flag) : f.code.toNat = flagNumber f := by cases f <;> rfl
theorem toNat_code_variant (v : Variant) : v.code.toNat = variantNumber v := by cases v <;> rfl

/-- SEL holds a selector code in its low bits and zero above (R73). -/
theorem sel_of_code {n m k : Nat} (hn : n ≤ 4) {x : BitVec n} {sel : BitVec 4} (hsel : x.setWidth 4 = sel)
    (hk : x.toNat = k) : sel.extractLsb' n m = 0#m ∧ (sel.extractLsb' 0 n).toNat = k := by
  subst hsel
  exact ⟨extractLsb'_high_setWidth x, by rw [extractLsb'_low_setWidth hn, hk]⟩

/-! ## Decoding and encoding (R72, R73) -/

/-- The fields of a word are those of the command it decodes to (R73). -/
theorem fields_of_decodeFields {op sel : BitVec 4} {data : Word} {i : Instr} (h : decodeFields op sel data = .ok i) :
    i.op = op ∧ i.sel = sel ∧ i.data = data := by
  unfold decodeFields at h
  split at h <;> simp only [unlessReserved_ok, bne_eq_false_iff_eq, reduceCtorEq] at h <;> obtain ⟨hs, hd, rfl⟩ := h
  case h_1 => exact ⟨rfl, hs.symm, hd.symm⟩
  case h_2 | h_4 | h_6 | h_8 | h_10 =>
    exact ⟨rfl, by simpa [Instr.sel] using setWidth_extractLsb'_low rfl hs, hd.symm⟩
  case h_3 | h_5 | h_7 => exact ⟨rfl, by simpa [Instr.sel] using setWidth_extractLsb'_low rfl hs, rfl⟩
  case h_9 =>
    exact ⟨rfl, by simpa [Instr.sel] using setWidth_extractLsb'_low rfl hs, setWidth_ofBool_getLsbD hd⟩

theorem sel_of_decodeFields {op sel : BitVec 4} {data : Word} {i : Instr} (h : decodeFields op sel data = .ok i) :
    i.sel = sel := by
  obtain ⟨-, hsel, -⟩ := fields_of_decodeFields h
  exact hsel

/-- A command that reads a thing and one that writes it carry the same SEL (R62). -/
theorem sel_of_get_or_set {op o o' sel : BitVec 4} {data : Word} {i j : Instr}
    (h : (op = o ∧ data = 0#16 ∧ decodeFields op sel data = .ok i) ∨ (op = o' ∧ decodeFields op sel data = .ok j))
    (hij : j.sel = i.sel) : i.sel = sel := by
  obtain ⟨-, -, hi⟩ | ⟨-, hj⟩ := h
  · exact sel_of_decodeFields hi
  · exact hij.symm.trans (sel_of_decodeFields hj)

/-- A word decodes to a command exactly when it is the command's word (R73). -/
theorem decode_eq_ok_iff {w : CmdWord} {i : Instr} : decode w = .ok i ↔ w = encode i := by
  constructor
  · intro h
    obtain ⟨hop, hsel, hdata⟩ := fields_of_decodeFields h
    exact word_eq_of_fields (by simp [hop]) (by simp [hsel]) (by simp [hdata])
  · rintro rfl
    exact decode_encode i

/-- The word of a command is the number that OP, SEL and DATA make (R61, R62). -/
theorem toNat_encode (i : Instr) : (encode i).toNat = wordNumber i := by
  rw [encode, toNat_packWord]
  cases i with
  | nop => rfl
  | getR8 r => cases r <;> rfl
  | setR8 r v => cases r <;> rfl
  | getR16 r => cases r <;> rfl
  | setR16 r v => cases r <;> rfl
  | getPair p => cases p <;> rfl
  | setPair p v => cases p <;> rfl
  | getFlag f => cases f <;> rfl
  | setFlag f b => cases f <;> cases b <;> rfl
  | powerUp v => cases v <;> rfl

/-! ## Must-be-zero bits (R70) -/

/-- A must-be-zero mask speaks of SEL and DATA (R70). -/
theorem opOf_mustBeZero {op : BitVec 4} {m : CmdWord} (h : mustBeZero op = some m) : opOf m = 0#4 := by
  unfold mustBeZero at h
  split at h <;> cases h <;> rfl

/-- A test of the must-be-zero bits is a test of SEL and one of DATA. -/
theorem and_eq_zero_iff {m : CmdWord} (hm : opOf m = 0#4) (w : CmdWord) :
    w &&& m = 0#24 ↔ selOf w &&& selOf m = 0#4 ∧ dataOf w &&& dataOf m = 0#16 := by
  conv_lhs => rw [← packWord_fields w, ← packWord_fields m, packWord_and, hm,
    show 0#24 = packWord 0#4 0#4 0#16 from rfl]
  simp [packWord_inj]

theorem extractLsb'_selOf {k n : Nat} (h : k + n ≤ 4) (w : CmdWord) :
    (selOf w).extractLsb' k n = w.extractLsb' (16 + k) n := by
  ext j hj
  simp [selOf, show k + j < 4 by omega, Nat.add_assoc]

/-- The one bit of SEL above the code of an 8-bit cell. -/
theorem getLsbD_19_iff (w : CmdWord) : w.getLsbD 19 = true ↔ (selOf w).extractLsb' 3 1 ≠ 0#1 := by
  rw [extractLsb'_selOf (by decide), extractLsb'_one_eq_ofBool]
  cases w.getLsbD 19 <;> decide

theorem extractLsb'_dataOf {k n : Nat} (h : k + n ≤ 16) (w : CmdWord) :
    (dataOf w).extractLsb' k n = w.extractLsb' k n :=
  BitVec.extractLsb'_extractLsb'_of_le h

/-- A test of the upper bits of a field by their mask. -/
theorem and_high_eq_zero_iff {n k : Nat} (x : BitVec (n + k)) :
    x &&& (BitVec.allOnes n ++ 0#k) = 0#(n + k) ↔ x.extractLsb' k n = 0#n := by
  conv_lhs => rw [← BitVec.extractLsb'_append_extractLsb' (x := x), BitVec.and_append, BitVec.and_allOnes,
    BitVec.and_zero]
  constructor
  · intro h
    simpa only [BitVec.extractLsb'_append_eq_left, BitVec.extractLsb'_zero] using congrArg (BitVec.extractLsb' k n) h
  · intro h
    rw [h, BitVec.zero_append_zero]

theorem sel_and_8_eq_zero_iff (s : BitVec 4) : s &&& 0x8#4 = 0#4 ↔ s.extractLsb' 3 1 = 0#1 :=
  and_high_eq_zero_iff (n := 1) (k := 3) s
theorem sel_and_E_eq_zero_iff (s : BitVec 4) : s &&& 0xE#4 = 0#4 ↔ s.extractLsb' 1 3 = 0#3 :=
  and_high_eq_zero_iff (n := 3) (k := 1) s
theorem sel_and_C_eq_zero_iff (s : BitVec 4) : s &&& 0xC#4 = 0#4 ↔ s.extractLsb' 2 2 = 0#2 :=
  and_high_eq_zero_iff (n := 2) (k := 2) s
theorem sel_and_F (s : BitVec 4) : s &&& 0xF#4 = s := BitVec.and_allOnes
theorem data_and_FFFE_eq_zero_iff (d : Word) : d &&& 0xFFFE#16 = 0#16 ↔ d.extractLsb' 1 15 = 0#15 :=
  and_high_eq_zero_iff (n := 15) (k := 1) d
theorem data_and_FFFF (d : Word) : d &&& 0xFFFF#16 = d := BitVec.and_allOnes

/-- Three fields are a command exactly when OP is assigned and no must-be-zero bit is 1 (R70, R71). -/
theorem decodeFields_ok_iff {op sel : BitVec 4} {data : Word} :
    (∃ i, decodeFields op sel data = .ok i) ↔
      ∃ m, mustBeZero op = some m ∧ sel &&& selOf m = 0#4 ∧ data &&& dataOf m = 0#16 := by
  unfold decodeFields mustBeZero
  split <;> simp [selOf, dataOf, sel_and_8_eq_zero_iff, sel_and_E_eq_zero_iff, sel_and_C_eq_zero_iff, sel_and_F,
    data_and_FFFE_eq_zero_iff, data_and_FFFF]

/-- A word is legal exactly when the decoder accepts it. -/
theorem decode_ok_iff {w : CmdWord} :
    (∃ i, decode w = .ok i) ↔ ∃ m, mustBeZero (opOf w) = some m ∧ w &&& m = 0#24 := by
  refine decodeFields_ok_iff.trans (exists_congr fun m => and_congr_right fun hm => ?_)
  exact (and_eq_zero_iff (opOf_mustBeZero hm) w).symm

theorem legalWord_iff {w : CmdWord} : legalWord w = true ↔ ∃ i, decode w = .ok i := by
  rw [decode_ok_iff, legalWord, ← opOf]
  cases mustBeZero (opOf w) with
  | none => simp
  | some m => simp

/-- A command is refused by `unlessReserved` exactly when one of the two kinds of must-be-zero bits is 1. -/
theorem exists_unlessReserved_error {sb db : Bool} {i : Instr} :
    (∃ why, unlessReserved sb db i = .error why) ↔ sb = true ∨ db = true := by
  cases sb <;> cases db <;> simp

/-- Three fields are reserved by one of R70 a, b, c or because OP is unassigned (R71). -/
theorem decodeFields_error_iff {op sel : BitVec 4} {data : Word} :
    (∃ why, decodeFields op sel data = .error why) ↔
      (op = 0x1#4 ∨ op = 0x2#4) ∧ sel.extractLsb' 3 1 ≠ 0#1 ∨
      (op = 0x3#4 ∨ op = 0x4#4) ∧ sel.extractLsb' 1 3 ≠ 0#3 ∨
      (0x5#4 ≤ op ∧ op ≤ 0x9#4) ∧ sel.extractLsb' 2 2 ≠ 0#2 ∨
      op = 0x0#4 ∧ sel ≠ 0#4 ∨
      (op = 0x0#4 ∨ op = 0x1#4 ∨ op = 0x3#4 ∨ op = 0x5#4 ∨ op = 0x7#4 ∨ op = 0x9#4) ∧ data ≠ 0#16 ∨
      op = 0x8#4 ∧ data.extractLsb' 1 15 ≠ 0#15 ∨
      0xA#4 ≤ op := by
  unfold decodeFields
  split
  case h_11 =>
    have hop : 0xA#4 ≤ op := by revert op; decide
    simp [hop]
  all_goals simp [exists_unlessReserved_error, -unlessReserved_error]

/-! ## Rows of the opcode map (R78) -/

/-- The row of an assigned OP with its must-be-zero mask: the OP bits and the must-be-zero bits are fixed. -/
def assignedRow (op : BitVec 4) (m : CmdWord) : OpRow :=
  ⟨packWord op 0#4 0#16, packWord 0xF#4 (selOf m) (dataOf m)⟩

theorem accepts_assignedRow (op : BitVec 4) (m w : CmdWord) :
    (assignedRow op m).accepts w = true ↔
      opOf w = op ∧ selOf w &&& selOf m = 0#4 ∧ dataOf w &&& dataOf m = 0#16 := by
  rw [OpRow.accepts, beq_iff_eq, assignedRow, ← packWord_fields w, packWord_and, packWord_inj, sel_and_F]
  simp

theorem opRows_eq : opRows = [0x0#4, 0x1#4, 0x2#4, 0x3#4, 0x4#4, 0x5#4, 0x6#4, 0x7#4, 0x8#4, 0x9#4].filterMap
    fun op => (mustBeZero op).map (assignedRow op) := rfl

theorem opRows_getElem? : ∀ op : BitVec 4, opRows[op.toNat]? = (mustBeZero op).map (assignedRow op) := by decide

theorem exists_op_of_mem_opRows {r : OpRow} (h : r ∈ opRows) :
    ∃ op m, mustBeZero op = some m ∧ assignedRow op m = r := by
  rw [opRows_eq] at h
  obtain ⟨op, -, hop⟩ := List.mem_filterMap.mp h
  exact ⟨op, Option.map_eq_some_iff.mp hop⟩

/-- The row of a command stands at its OP. -/
theorem opRows_getElem?_op (i : Instr) : opRows[i.op.toNat]? = some i.row := by cases i <;> rfl

/-- The row of a command is the one of its OP. -/
theorem exists_assignedRow_eq_row (i : Instr) : ∃ m, mustBeZero i.op = some m ∧ assignedRow i.op m = i.row :=
  Option.map_eq_some_iff.mp ((opRows_getElem? i.op).symm.trans (opRows_getElem?_op i))

theorem row_mem_opRows (i : Instr) : i.row ∈ opRows := List.mem_of_getElem? (opRows_getElem?_op i)

/-- The row of a command accepts the command's word. -/
theorem row_accepts_of_decode {w : CmdWord} {i : Instr} (h : decode w = .ok i) : i.row.accepts w = true := by
  obtain rfl := decode_eq_ok_iff.mp h
  cases i with
  | nop => exact Laws.EncodesInItsRow.nop
  | getR8 r => exact Laws.EncodesInItsRow.getR8 r
  | setR8 r v => exact Laws.EncodesInItsRow.setR8 r v
  | getR16 r => exact Laws.EncodesInItsRow.getR16 r
  | setR16 r v => exact Laws.EncodesInItsRow.setR16 r v
  | getPair p => exact Laws.EncodesInItsRow.getPair p
  | setPair p v => exact Laws.EncodesInItsRow.setPair p v
  | getFlag f => exact Laws.EncodesInItsRow.getFlag f
  | setFlag f b => exact Laws.EncodesInItsRow.setFlag f b
  | powerUp v => exact Laws.EncodesInItsRow.powerUp v

/-- A word that a row accepts is the word of a command of that row. -/
theorem decode_of_accepts {w : CmdWord} {r : OpRow} (hr : r ∈ opRows) (h : r.accepts w = true) :
    ∃ i, decode w = .ok i ∧ i.row = r := by
  obtain ⟨op, m, hm, rfl⟩ := exists_op_of_mem_opRows hr
  obtain ⟨rfl, hbits⟩ := (accepts_assignedRow op m w).mp h
  obtain ⟨i, hi⟩ := decodeFields_ok_iff.mpr ⟨m, hm, hbits⟩
  obtain ⟨hop, -, -⟩ := fields_of_decodeFields hi
  obtain ⟨m', hm', hrow⟩ := exists_assignedRow_eq_row i
  obtain rfl : m = m' := Option.some_injective _ (hm.symm.trans (hop ▸ hm'))
  exact ⟨i, hi, hrow.symm.trans (hop ▸ rfl)⟩

theorem eq_of_accepts {w : CmdWord} {r q : OpRow} (hr : r ∈ opRows) (hq : q ∈ opRows) (hrw : r.accepts w = true)
    (hqw : q.accepts w = true) : r = q := by
  obtain ⟨i, hi, rfl⟩ := decode_of_accepts hr hrw
  obtain ⟨j, hj, rfl⟩ := decode_of_accepts hq hqw
  rw [Except.ok.inj (hi.symm.trans hj)]

/-- A word is legal exactly when a row accepts it. -/
theorem legalWord_iff_exists_row {w : CmdWord} : legalWord w = true ↔ ∃ r ∈ opRows, r.accepts w = true := by
  rw [legalWord_iff]
  constructor
  · rintro ⟨i, hi⟩
    exact ⟨i.row, row_mem_opRows i, row_accepts_of_decode hi⟩
  · rintro ⟨r, hr, h⟩
    obtain ⟨i, hi, -⟩ := decode_of_accepts hr h
    exact ⟨i, hi⟩

/-! ## Counting words (R71) -/

/-- The words a row accepts: any SEL and any DATA without a must-be-zero bit. -/
theorem card_accepts_assignedRow (op : BitVec 4) (m : CmdWord) {a b : Nat}
    (hsel : (Finset.univ.filter fun s => s &&& selOf m = 0#4).card = a)
    (hdata : (Finset.univ.filter fun d => d &&& dataOf m = 0#16).card = b) :
    (Finset.univ.filter fun w => (assignedRow op m).accepts w = true).card = a * b := by
  rw [← hsel, ← hdata, ← Finset.card_product]
  refine Finset.card_nbij' (fun w => (selOf w, dataOf w)) (fun p => packWord op p.1 p.2) ?_ ?_ ?_ ?_
  · intro w hw
    simpa using ((accepts_assignedRow op m w).mp (by simpa using hw)).2
  · rintro ⟨s, d⟩ h
    simpa [accepts_assignedRow] using h
  · intro w hw
    obtain ⟨rfl, -⟩ := (accepts_assignedRow op m w).mp (by simpa using hw)
    exact packWord_fields w
  · rintro ⟨s, d⟩ -
    simp

/-- A mask over the upper bits of a field leaves the lower bits free. -/
theorem card_and_high_eq_zero (n k : Nat) :
    (Finset.univ.filter fun x : BitVec (n + k) => x &&& (BitVec.allOnes n ++ 0#k) = 0#(n + k)).card = 2 ^ k := by
  calc _ = (Finset.univ : Finset (BitVec k)).card := ?_
    _ = 2 ^ k := FinEnum.card_eq_fintypeCard.symm
  refine Finset.card_nbij' (fun x => x.extractLsb' 0 k) (fun y => 0#n ++ y) ?_ ?_ ?_ ?_
  · intro x _
    exact Finset.mem_univ _
  · intro y _
    simp [BitVec.and_append]
  · intro x hx
    have hhigh : x.extractLsb' k n = 0#n := (and_high_eq_zero_iff x).mp (by simpa using hx)
    simpa only [hhigh] using BitVec.extractLsb'_append_extractLsb' (x := x)
  · intro y _
    exact BitVec.extractLsb'_append_eq_right

theorem card_sel_and_8 : (Finset.univ.filter fun s => s &&& 0x8#4 = 0#4).card = 8 := card_and_high_eq_zero 1 3
theorem card_sel_and_E : (Finset.univ.filter fun s => s &&& 0xE#4 = 0#4).card = 2 := card_and_high_eq_zero 3 1
theorem card_sel_and_C : (Finset.univ.filter fun s => s &&& 0xC#4 = 0#4).card = 4 := card_and_high_eq_zero 2 2
theorem card_sel_and_F : (Finset.univ.filter fun s => s &&& 0xF#4 = 0#4).card = 1 := card_and_high_eq_zero 4 0
theorem card_data_and_0000 : (Finset.univ.filter fun d => d &&& 0x0000#16 = 0#16).card = 65536 :=
  card_and_high_eq_zero 0 16
theorem card_data_and_FFFF : (Finset.univ.filter fun d => d &&& 0xFFFF#16 = 0#16).card = 1 :=
  card_and_high_eq_zero 16 0
theorem card_data_and_FFFE : (Finset.univ.filter fun d => d &&& 0xFFFE#16 = 0#16).card = 2 :=
  card_and_high_eq_zero 15 1

/-- The words of each row (R71, the table). -/
theorem map_card_opRows : (opRows.map fun r => (Finset.univ.filter fun w : CmdWord => r.accepts w = true).card) =
    [1, 8, 524288, 2, 131072, 4, 262144, 4, 8, 4] := by
  simp only [opRows_eq, mustBeZero, List.filterMap_cons, List.filterMap_nil, Option.map_some, List.map_cons,
    List.map_nil,
    card_accepts_assignedRow 0x0#4 0x0FFFFF#24 card_sel_and_F card_data_and_FFFF,
    card_accepts_assignedRow 0x1#4 0x08FFFF#24 card_sel_and_8 card_data_and_FFFF,
    card_accepts_assignedRow 0x2#4 0x080000#24 card_sel_and_8 card_data_and_0000,
    card_accepts_assignedRow 0x3#4 0x0EFFFF#24 card_sel_and_E card_data_and_FFFF,
    card_accepts_assignedRow 0x4#4 0x0E0000#24 card_sel_and_E card_data_and_0000,
    card_accepts_assignedRow 0x5#4 0x0CFFFF#24 card_sel_and_C card_data_and_FFFF,
    card_accepts_assignedRow 0x6#4 0x0C0000#24 card_sel_and_C card_data_and_0000,
    card_accepts_assignedRow 0x7#4 0x0CFFFF#24 card_sel_and_C card_data_and_FFFF,
    card_accepts_assignedRow 0x8#4 0x0CFFFE#24 card_sel_and_C card_data_and_FFFE,
    card_accepts_assignedRow 0x9#4 0x0CFFFF#24 card_sel_and_C card_data_and_FFFF, Nat.reduceMul]

/-- The legal words are the words the rows accept, each counted in one row. -/
theorem card_legalWord : (Finset.univ.filter fun w : CmdWord => legalWord w = true).card =
    (opRows.map fun r => (Finset.univ.filter fun w : CmdWord => r.accepts w = true).card).sum := by
  have hunion : (Finset.univ.filter fun w : CmdWord => legalWord w = true) =
      opRows.toFinset.biUnion fun r => Finset.univ.filter fun w : CmdWord => r.accepts w = true := by
    ext w
    simp [legalWord_iff_exists_row]
  rw [hunion, Finset.card_biUnion]
  · exact List.sum_toFinset _ (by decide)
  · intro r hr q hq hne
    refine Finset.disjoint_filter.mpr fun w _ hrw hqw => hne (eq_of_accepts ?_ ?_ hrw hqw)
    · simpa using hr
    · simpa using hq

end Sys2Proof.Machine
end

section
/-! SUPPORT. Facts about the assembler's text (30_encoding.md R76): names looked up, numbers read, lines taken apart. -/

namespace Sys2Proof.Machine

/-! ## Names -/

/-- A name found is the name of what was found. -/
theorem name_of_lookupName {α : Type} {name : α → List Char} {cs : List Char} {xs : List α} {x : α}
    (h : lookupName name cs xs = .ok x) : cs = name x := by
  induction xs with
  | nil => simp [lookupName] at h
  | cons y ys ih =>
    rw [lookupName] at h
    split at h
    · cases h
      exact Eq.symm ‹_›
    · exact ih h

theorem parseReg8_iff {cs : List Char} {r : Reg8} : parseReg8 cs = .ok r ↔ cs = reg8Name r := by
  refine ⟨name_of_lookupName, ?_⟩
  rintro rfl
  cases r <;> rfl

theorem parseReg16_iff {cs : List Char} {r : Reg16} : parseReg16 cs = .ok r ↔ cs = reg16Name r := by
  refine ⟨name_of_lookupName, ?_⟩
  rintro rfl
  cases r <;> rfl

theorem parsePair_iff {cs : List Char} {p : Pair} : parsePair cs = .ok p ↔ cs = pairName p := by
  refine ⟨name_of_lookupName, ?_⟩
  rintro rfl
  cases p <;> rfl

theorem parseVariant_iff {cs : List Char} {v : Variant} : parseVariant cs = .ok v ↔ cs = variantName v := by
  refine ⟨name_of_lookupName, ?_⟩
  rintro rfl
  cases v <;> rfl

@[simp] theorem parseFlag_flagName (f : Flag) : parseFlag (flagName f) = .ok f := by cases f <;> rfl
@[simp] theorem parseFlag_flagSynonym (f : Flag) : parseFlag (flagSynonym f) = .ok f := by cases f <;> rfl

/-- A flag has its name and its synonym and no other (R76). -/
theorem name_of_parseFlag {cs : List Char} {f : Flag} (h : parseFlag cs = .ok f) :
    cs = flagName f ∨ cs = flagSynonym f := by
  unfold parseFlag at h
  split at h
  · next g hg =>
    cases h
    exact .inl (name_of_lookupName hg)
  · exact .inr (name_of_lookupName h)

@[simp] theorem parseMnemonic_mnemonicName (m : Mnemonic) : parseMnemonic (mnemonicName m) = .ok m := by cases m <;> rfl

theorem parseBool_iff {cs : List Char} {b : Bool} :
    parseBool cs = .ok b ↔ cs = (if b then trueName else falseName) ∨ cs = [if b then '1' else '0'] := by
  unfold parseBool
  split
  case isTrue h =>
    obtain rfl | rfl := h <;> cases b <;> decide
  case isFalse h =>
    split
    case isTrue h' => obtain rfl | rfl := h' <;> cases b <;> decide
    case isFalse h' =>
      cases b with
      | true => exact iff_of_false nofun h
      | false => exact iff_of_false nofun h'

@[simp] theorem parseReg8_reg8Name (r : Reg8) : parseReg8 (reg8Name r) = .ok r := parseReg8_iff.mpr rfl
@[simp] theorem parseReg16_reg16Name (r : Reg16) : parseReg16 (reg16Name r) = .ok r := parseReg16_iff.mpr rfl
@[simp] theorem parsePair_pairName (p : Pair) : parsePair (pairName p) = .ok p := parsePair_iff.mpr rfl
@[simp] theorem parseVariant_variantName (v : Variant) : parseVariant (variantName v) = .ok v :=
  parseVariant_iff.mpr rfl
@[simp] theorem parseBool_boolName (b : Bool) : parseBool (boolName b) = .ok b := parseBool_iff.mpr (.inl rfl)

/-! ## Numbers -/

/-- A number read is its value, or the error of one that is too large (R76). -/
theorem parseNumber_of_numberValue {cs : List Char} {n : Nat} (h : numberValue cs = some n) :
    parseNumber cs = if n < 65536 then .ok (BitVec.ofNat 16 n) else .error .numberTooLarge := by
  simp [parseNumber, h]

/-- One more digit at the end. -/
theorem digitsValue_append_singleton {base acc n d : Nat} {cs : List Char} {ch : Char}
    (h : digitsValue base acc cs = some n) (hch : digitValue ch = some d) (hd : d < base) :
    digitsValue base acc (cs ++ [ch]) = some (n * base + d) := by
  induction cs generalizing acc with
  | nil =>
    obtain rfl : acc = n := by simpa [digitsValue] using h
    simp [digitsValue, hch, hd]
  | cons c cs ih =>
    simp only [digitsValue, List.cons_append] at h ⊢
    split at h
    · split at h
      · next hlt =>
        exact (if_pos hlt).trans (ih h)
      · cases h
    · cases h

/-- The digits of a number, in any spelling that keeps their values, denote it. -/
theorem digitsValue_toDigits {base : Nat} (hbase : 1 < base) {spell : Char → Char}
    (hspell : ∀ d < base, digitValue (spell d.digitChar) = some d) (n : Nat) :
    digitsValue base 0 ((Nat.toDigits base n).map spell) = some n := by
  induction n using Nat.strongRecOn with
  | _ n ih =>
    by_cases hn : n < base
    · simp [Nat.toDigits_of_lt_base hn, digitsValue, hspell n hn, hn]
    · have hq := ih (n / base) (Nat.div_lt_self (by omega) hbase)
      have hr : n % base < base := Nat.mod_lt _ (by omega)
      rw [Nat.toDigits_of_base_le hbase (by omega), List.map_append, List.map_singleton,
        digitsValue_append_singleton hq (hspell _ hr) hr, Nat.div_add_mod']

theorem digitsValue_toDigits_ten (n : Nat) : digitsValue 10 0 (Nat.toDigits 10 n) = some n := by
  simpa using digitsValue_toDigits (base := 10) (spell := id) (by decide) (by decide) n

theorem digitsValue_toDigits_sixteen (n : Nat) : digitsValue 16 0 (Nat.toDigits 16 n) = some n := by
  simpa using digitsValue_toDigits (base := 16) (spell := id) (by decide) (by decide) n

theorem digitsValue_toDigits_sixteen_upper (n : Nat) :
    digitsValue 16 0 ((Nat.toDigits 16 n).map Char.toUpper) = some n :=
  digitsValue_toDigits (by decide) (by decide) n

/-- A leading zero changes no value. -/
theorem digitsValue_zero_cons {base : Nat} (hbase : 0 < base) (cs : List Char) :
    digitsValue base 0 ('0' :: cs) = digitsValue base 0 cs := by
  simp [digitsValue, show digitValue '0' = some 0 from rfl, hbase]

/-- Decimal digits are a number. -/
theorem numberValue_of_decimal {cs : List Char} {n : Nat} (hcs : cs ≠ []) (h : digitsValue 10 0 cs = some n) :
    numberValue cs = some n := by
  unfold numberValue
  split
  · exact absurd rfl hcs
  · cases h
  · cases h
  · exact h

/-- Hexadecimal digits behind `0x` are a number. -/
theorem numberValue_of_hex {cs : List Char} {n : Nat} (hcs : cs ≠ []) (h : digitsValue 16 0 cs = some n) :
    numberValue ('0' :: 'x' :: cs) = some n := by
  cases cs with
  | nil => exact absurd rfl hcs
  | cons c cs => exact h

theorem numberValue_toDigits_ten (n : Nat) : numberValue (Nat.toDigits 10 n) = some n :=
  numberValue_of_decimal Nat.toDigits_ne_nil (digitsValue_toDigits_ten n)

theorem numberValue_toDigits_sixteen (n : Nat) : numberValue ('0' :: 'x' :: Nat.toDigits 16 n) = some n :=
  numberValue_of_hex Nat.toDigits_ne_nil (digitsValue_toDigits_sixteen n)

/-- The digits of a listed value. -/
theorem digitValue_hexDigit : ∀ d : BitVec 4, digitValue (hexDigit d) = some d.toNat := by decide

theorem digitsValue_hexDigit_cons (acc : Nat) (d : BitVec 4) (cs : List Char) :
    digitsValue 16 acc (hexDigit d :: cs) = digitsValue 16 (acc * 16 + d.toNat) cs := by
  rw [digitsValue, digitValue_hexDigit]
  exact if_pos d.isLt

/-- A listed value is read back. -/
theorem numberValue_hexWord (v : Word) : numberValue (hexWord v) = some v.toNat := by
  refine numberValue_of_hex (List.cons_ne_nil _ _) ?_
  have hv := v.isLt
  rw [digitsValue_hexDigit_cons, digitsValue_hexDigit_cons, digitsValue_hexDigit_cons, digitsValue_hexDigit_cons,
    digitsValue]
  simp only [BitVec.extractLsb'_toNat, Nat.shiftRight_eq_div_pow]
  congr 1
  omega

@[simp] theorem parseNumber_hexWord (v : Word) : parseNumber (hexWord v) = .ok v := by
  simp [parseNumber_of_numberValue (numberValue_hexWord v), v.isLt]

/-! ## Lines -/

/-- A comment is stripped (R76). -/
theorem stripComment_append_comment (line comment : List Char) :
    stripComment (line ++ '#' :: comment) = stripComment line := by
  induction line with
  | nil => rfl
  | cons c cs ih =>
    simp only [stripComment, List.cons_append, List.takeWhile_cons] at ih ⊢
    rw [ih]

/-- A character of a word: no blank, no comma and no comment. -/
def wordChar (ch : Char) : Bool := ch != ' ' && ch != '\t' && ch != ',' && ch != '#'

/-- A text that is read as one word. -/
def isWord (cs : List Char) : Bool := !cs.isEmpty && cs.all wordChar

@[simp] theorem isWord_mnemonicName (m : Mnemonic) : isWord (mnemonicName m) = true := by cases m <;> rfl
@[simp] theorem isWord_reg8Name (r : Reg8) : isWord (reg8Name r) = true := by cases r <;> rfl
@[simp] theorem isWord_reg16Name (r : Reg16) : isWord (reg16Name r) = true := by cases r <;> rfl
@[simp] theorem isWord_pairName (p : Pair) : isWord (pairName p) = true := by cases p <;> rfl
@[simp] theorem isWord_flagName (f : Flag) : isWord (flagName f) = true := by cases f <;> rfl
@[simp] theorem isWord_variantName (v : Variant) : isWord (variantName v) = true := by cases v <;> rfl
@[simp] theorem isWord_boolName (b : Bool) : isWord (boolName b) = true := by cases b <;> rfl

theorem wordChar_hexDigit : ∀ d : BitVec 4, wordChar (hexDigit d) = true := by decide

@[simp] theorem isWord_hexWord (v : Word) : isWord (hexWord v) = true := by
  simp [isWord, hexWord, wordChar_hexDigit, show wordChar '0' = true from rfl, show wordChar 'x' = true from rfl]

/-- The characters of a word are collected, past the comment's reach. -/
theorem tokensFrom_stripComment_append {cs : List Char} (h : cs.all wordChar = true) (acc rest : List Char) :
    tokensFrom acc (stripComment (cs ++ rest)) = tokensFrom (cs.reverse ++ acc) (stripComment rest) := by
  induction cs generalizing acc with
  | nil => rfl
  | cons c cs ih =>
    obtain ⟨hc, hcs⟩ : wordChar c = true ∧ cs.all wordChar = true := by simpa using h
    simp only [wordChar, Bool.and_eq_true, bne_iff_ne, ne_eq] at hc
    obtain ⟨⟨⟨hblank, htab⟩, hcomma⟩, hhash⟩ := hc
    have hstrip : stripComment (c :: cs ++ rest) = c :: stripComment (cs ++ rest) := by
      simp [stripComment, hhash]
    rw [hstrip]
    simp [tokensFrom, hblank, htab, hcomma, ih hcs]

section tokens

variable {cs : List Char} (h : isWord cs = true) (rest : List Char)

include h in
theorem flushWord_reverse (ts : List Token) : flushWord cs.reverse ts = .word cs :: ts := by
  cases hr : cs.reverse with
  | nil => simp [isWord, List.reverse_eq_nil_iff.mp hr] at h
  | cons c r => simp [flushWord, ← hr]

include h in
theorem tokens_append : tokens (cs ++ rest) = tokensFrom cs.reverse (stripComment rest) := by
  have hall : cs.all wordChar = true := (Bool.and_eq_true_iff.mp h).2
  simpa [tokens] using tokensFrom_stripComment_append hall [] rest

include h in
theorem tokens_word : tokens cs = [.word cs] := by
  have hend := tokens_append h []
  rw [List.append_nil] at hend
  exact hend.trans (flushWord_reverse h [])

include h in
theorem tokens_word_blank : tokens (cs ++ ' ' :: rest) = .word cs :: tokens rest :=
  (tokens_append h _).trans (flushWord_reverse h _)

include h in
theorem tokens_word_comma : tokens (cs ++ ',' :: rest) = .word cs :: .comma :: tokens rest :=
  (tokens_append h _).trans (flushWord_reverse h _)

theorem tokens_blank : tokens (' ' :: rest) = tokens rest := rfl

end tokens

/-- A line that begins with a mnemonic is what its operands say. -/
theorem parseLine_of_tokens {line : List Char} {m : Mnemonic} {ts : List Token} {x : AsmItem}
    (hline : tokens line = .word (mnemonicName m) :: ts) (hx : parseOperands m ts = .ok x) :
    parseLine line = .ok (some x) := by
  simp [parseLine, hline, hx]

theorem parseLine_selector {m : Mnemonic} {x : List Char} {i : AsmItem} (hx : isWord x = true)
    (hi : parseOperands m [.word x] = .ok i) : parseLine (mnemonicName m ++ ' ' :: x) = .ok (some i) :=
  parseLine_of_tokens (by rw [tokens_word_blank (isWord_mnemonicName m), tokens_word hx]) hi

theorem parseLine_selector_value {m : Mnemonic} {x y : List Char} {i : AsmItem} (hx : isWord x = true)
    (hy : isWord y = true) (hi : parseOperands m [.word x, .comma, .word y] = .ok i) :
    parseLine (mnemonicName m ++ ' ' :: (x ++ ',' :: ' ' :: y)) = .ok (some i) := by
  refine parseLine_of_tokens ?_ hi
  rw [tokens_word_blank (isWord_mnemonicName m), tokens_word_comma hx, tokens_blank, tokens_word hy]

theorem parseLine_listing (i : Instr) : parseLine (listing i) = .ok (some (.command i)) := by
  cases i with
  | nop => rfl
  | getR8 r => exact parseLine_selector (by simp) (by simp [parseOperands, form1])
  | setR8 r v => exact parseLine_selector_value (by simp) (by simp) (by simp [parseOperands, form2])
  | getR16 r => exact parseLine_selector (by simp) (by simp [parseOperands, form1])
  | setR16 r v => exact parseLine_selector_value (by simp) (by simp) (by simp [parseOperands, form2])
  | getPair p => exact parseLine_selector (by simp) (by simp [parseOperands, form1])
  | setPair p v => exact parseLine_selector_value (by simp) (by simp) (by simp [parseOperands, form2])
  | getFlag f => exact parseLine_selector (by simp) (by simp [parseOperands, form1])
  | setFlag f b => exact parseLine_selector_value (by simp) (by simp) (by simp [parseOperands, form2])
  | powerUp v => exact parseLine_selector (by simp) (by simp [parseOperands, form1])

end Sys2Proof.Machine
end

section
/-! The statements on the encoding (30_encoding.md), each settled from the lemmas above. -/

namespace Sys2Proof.Proofs

open Sys2Proof.Machine Sys2Proof.Claims

/-- Settles O3: a word decodes to a command exactly when it is the command's encoding, and `set_r8` takes the low
byte of DATA. -/
theorem encodeAndDecodeAreInverse : Obligations.EncodeAndDecodeAreInverse := by
  refine ⟨fun i => ⟨opOf_encode i, selOf_encode i, dataOf_encode i⟩, fun _ _ => rfl, fun _ _ => rfl, fun _ _ => rfl,
    fun _ => ⟨rfl, rfl⟩, fun i h => ?noValue, decode_encode, fun w i h => (decode_eq_ok_iff.mp h).symm,
    fun w x i hw hx => (decode_eq_ok_iff.mp hw).trans (decode_eq_ok_iff.mp hx).symm, fun cs n r hcs hn => ?byteNumber,
    fun r v s => ?highByte⟩
  case noValue =>
    cases i with
    | setR8 _ _ => simp [returnWidth] at h
    | setR16 _ _ => simp [returnWidth] at h
    | setPair _ _ => simp [returnWidth] at h
    | setFlag _ _ => simp [returnWidth] at h
    | _ => rfl
  case byteNumber =>
    refine ⟨BitVec.ofNat 16 n, ?_, ?_⟩
    · rw [parseNumber_of_numberValue hcs, if_pos (by omega)]
    · rw [dataOf_encode]
      exact highByte_ofNat hn
  case highByte =>
    have hword : ∀ x, decode (packWord 0x2#4 (0#1 ++ r.code) x) = .ok (.setR8 r x) := by
      intro x
      have hsel : 0#1 ++ r.code = (Instr.setR8 r x).sel := by cases r <;> rfl
      exact hsel ▸ decode_encode (.setR8 r x)
    have hlow : lowByte (0#8 ++ lowByte v) = lowByte v := lowByte_append _ _
    refine ⟨0#8 ++ lowByte v, hword v, hword _, highByte_append _ _, hlow, ?_⟩
    rw [exec_eq, exec_eq]
    simp only [cellsAfter, resultOf, Cells.setByte, hlow]

/-- Settles O8: the tokens of a listing are its mnemonic and its operands, each read back by name or number. -/
theorem assemblerReadsEveryListing : Obligations.AssemblerReadsEveryListing :=
  fun i => ⟨parseLine_listing i, by simp [assemble, parseLine_listing, AsmItem.commands]⟩

/-- Settles O2: a word decodes to a command exactly when it is the command's encoding, whose number is `wordNumber`. -/
theorem wordDecodesToCommandIffItIsItsNumber : Obligations.WordDecodesToCommandIffItIsItsNumber := by
  intro w i
  rw [decode_eq_ok_iff, ← toNat_encode, BitVec.toNat_inj]

/-- Settles O4: the must-be-zero bits of the fields are those of the word. -/
theorem reservedWordsAreThoseWithAMustBeZeroBit : Obligations.ReservedWordsAreThoseWithAMustBeZeroBit := by
  refine ⟨fun w => ?_, fun w => legalWord_iff, fun i => ⟨encode i, decode_encode i, fun x => decode_eq_ok_iff.mp⟩⟩
  rw [getLsbD_19_iff, ← extractLsb'_selOf (k := 1) (by decide), ← extractLsb'_selOf (k := 2) (by decide),
    ← extractLsb'_dataOf (k := 1) (by decide)]
  exact decodeFields_error_iff

/-- Settles O5: a row fixes OP and the must-be-zero bits and leaves the others free; a legal word stands in one row. -/
theorem legalWordsAreCounted : Obligations.LegalWordsAreCounted := by
  refine ⟨?_, map_card_opRows⟩
  rw [card_legalWord, map_card_opRows]
  rfl

/-- Settles O6: a row accepts the words with its OP and no must-be-zero bit, which are those of its commands. -/
theorem rowsMatchExactlyTheLegalWords : Obligations.RowsMatchExactlyTheLegalWords := by
  refine ⟨rfl, opRows_getElem?_op, fun i => ?mask, fun _ _ => row_accepts_of_decode, fun _ _ => decode_of_accepts,
    fun _ _ _ => eq_of_accepts, fun w h => ?rejected⟩
  case mask => cases i <;> exact ⟨_, rfl, rfl⟩
  case rejected =>
    cases hw : decode w with
    | error why => exact ⟨why, rfl⟩
    | ok i => simpa [h i.row (row_mem_opRows i)] using row_accepts_of_decode hw

/-- Settles O7: the SEL of a decoded command is its selector's code. -/
theorem selectorCodesAreTheTables : Obligations.SelectorCodesAreTheTables := by
  refine ⟨fun op sel data r h => ?reg8, fun op sel data r h => ?reg16, fun op sel data p h => ?pair,
    fun op sel data f h => ?flag, fun sel v h => ?variant, fun r => ⟨r.code, toNat_code_reg8 r, cell8_code r⟩,
    fun r => ⟨r.code, toNat_code_reg16 r, cell16_code r⟩, fun p => ⟨p.code, toNat_code_pair p, pairOf_code p⟩,
    fun f => ⟨f.code, toNat_code_flag f, flagOf_code f⟩, fun e v hreset hv => ?strap, fun p => ?cells, fun f => ?mask⟩
  case reg8 =>
    have hsel := sel_of_get_or_set h rfl
    obtain ⟨hhigh, hcode⟩ := sel_of_code (m := 1) (x := r.code) (by decide) hsel (toNat_code_reg8 r)
    exact ⟨by simpa using congrArg (BitVec.getLsbD · 0) hhigh, hcode⟩
  case reg16 =>
    have hsel := sel_of_get_or_set h rfl
    exact sel_of_code (x := r.code) (by decide) hsel (toNat_code_reg16 r)
  case pair =>
    have hsel := sel_of_get_or_set h rfl
    exact sel_of_code (x := p.code) (by decide) hsel (toNat_code_pair p)
  case flag =>
    have hsel := sel_of_get_or_set h rfl
    exact sel_of_code (x := f.code) (by decide) hsel (toNat_code_flag f)
  case variant => exact sel_of_code (by decide) (sel_of_decodeFields h) (toNat_code_variant v)
  case strap =>
    have hcode : e.variant = v.code := BitVec.eq_of_toNat_eq (hv.trans (toNat_code_variant v).symm)
    simp [Edge.presented, hreset, hcode]
  case cells => cases p <;> decide
  case mask =>
    refine ⟨(maskOf_eq_flagMask f).symm, fun n => ?_⟩
    have hbit : 7 - flagNumber f < 8 := by omega
    simp [flagMask_eq_twoPow, BitVec.getLsbD_twoPow, hbit, eq_comm]

/-- Settles O9: comments are stripped, numbers are bounded, and names are looked up. -/
theorem assemblerFollowsTheTextualForm : Obligations.AssemblerFollowsTheTextualForm := by
  refine ⟨fun line comment => ?_, fun cs n h hn => ?_, fun cs n h hn => ?_, fun _ _ => parseBool_iff,
    fun f => ⟨parseFlag_flagName f, parseFlag_flagSynonym f⟩, fun _ _ => name_of_parseFlag, fun _ _ => parseReg8_iff,
    fun _ _ => parseReg16_iff, fun _ _ => parsePair_iff, fun _ _ => parseVariant_iff⟩
  · simp only [parseLine, tokens, stripComment_append_comment]
  · rw [parseNumber_of_numberValue h, if_pos hn]
  · rw [parseNumber_of_numberValue h, if_neg (by omega)]

/-- Settles O52: digits are read back from the left, whatever the case, and leading zeros count nothing. -/
theorem numbersAreReadInDecimalAndHexadecimal : Obligations.NumbersAreReadInDecimalAndHexadecimal := by
  refine ⟨numberValue_toDigits_ten, numberValue_toDigits_sixteen, fun n => ?upper, fun n => ⟨?zero, ?hexZero⟩,
    fun n => parseNumber_of_numberValue (numberValue_toDigits_ten n),
    fun n => parseNumber_of_numberValue (numberValue_toDigits_sixteen n), rfl, rfl⟩
  case upper =>
    exact numberValue_of_hex (by simp [Nat.toDigits_ne_nil]) (digitsValue_toDigits_sixteen_upper n)
  case zero =>
    exact numberValue_of_decimal (List.cons_ne_nil _ _)
      ((digitsValue_zero_cons (by decide) _).trans (digitsValue_toDigits_ten n))
  case hexZero =>
    exact numberValue_of_hex (List.cons_ne_nil _ _)
      ((digitsValue_zero_cons (by decide) _).trans (digitsValue_toDigits_sixteen n))

/-- Settles O10: a reset edge performs `power_up`, and so does `reset v`. -/
theorem pseudoInstructionsExpandAsListed : Obligations.PseudoInstructionsExpandAsListed := by
  refine ⟨fun _ => rfl, fun v s x w => ?_, rfl, fun _ _ _ _ _ _ _ _ _ _ => rfl⟩
  rw [step_of_instr_ok (i := .powerUp v), exec_eq, Pseudo.expand, execSeq_cons]
  · rfl
  · simp [takeEdge, Edge.presented, Presented.instr]

/-- Settles O27: RESP is the result of the command, zero-extended. -/
theorem responsePortShowsTheResult : Obligations.ResponsePortShowsTheResult := by
  refine ⟨fun i s t h => ?valid, fun i s t h hi => ?none, fun r s t h => ?r8, fun r s t h => ?r16, fun p s t h => ?pair,
    fun f s t h => ?flag⟩
  all_goals obtain rfl := exec_next.mp h
  case valid =>
    rw [← resultWidth_resultOf i s.cells, Option.isSome_map]
    rfl
  case none =>
    have hnone : resultOf i s.cells = none := by
      rw [← Option.map_eq_none_iff, resultWidth_resultOf, hi]
    simp [State.resp, hnone]
  case flag => cases hf : s.cells.flag f <;> simp [State.resp, resultOf, Result.resp, hf]
  all_goals rfl

/-- Settles O36: a command edge performs its decoded word, and a presented word is a command edge. -/
theorem stepRunsTheDecodedCommand : Obligations.StepRunsTheDecodedCommand := by
  have hedge : ∀ (s : State) (e : Edge) (rest : List Edge) (i : Instr), s.port = e :: rest → e.reset = false →
      e.cmdValid = true → decode e.cmd = .ok i → step s = exec i { s with port := rest } := by
    intro s e rest i hport hreset hvalid hi
    rw [step_of_instr_ok (i := i), hport, List.tail_cons]
    rw [takeEdge_cons s e hport]
    simp [Edge.presented, hreset, hvalid, Presented.instr, hi]
  refine ⟨hedge, fun s w i hi => ?_⟩
  have hword : tableWord 24 w.toNat = w := by
    rw [tableWord, Nat.mod_eq_of_lt w.isLt, BitVec.ofNat_toNat, BitVec.setWidth_eq]
  exact hedge _ _ s.port i rfl rfl rfl (hword.symm ▸ hi)

/-- Settles O39: an idle edge presents nothing, and the strap matters only to a reset. -/
theorem idleEdgesChangeNoCell : Obligations.IdleEdgesChangeNoCell := by
  refine ⟨fun s e rest hport hreset hvalid => ?_, fun s hport => ?_, fun s e v rest hreset => ?_⟩
  · rw [step_of_instr_ok (i := .nop), exec_eq, hport, List.tail_cons]
    · rfl
    · rw [takeEdge_cons s e hport]
      simp [Edge.presented, hreset, hvalid, Presented.instr]
  · rw [step_of_instr_ok (i := .nop), exec_eq, hport, List.tail_nil, ← hport]
    · rfl
    · rw [takeEdge_nil s hport]
      rfl
  · have hpres : ({ e with variant := v } : Edge).presented = e.presented := by simp [Edge.presented, hreset]
    simp only [step, takeEdge, hpres]

end Sys2Proof.Proofs
end

section
/-! SUPPORT. Facts that the statements on the access commands of single cells (40_reg_access.md) share: the byte write in
the spelling of R91 and R92, a cell written with its own value, and command words given by a selector code. -/

namespace Sys2Proof.Machine

/-! ## The byte write (40_reg_access.md R91, R92) -/

theorem Cells.setByte_f (c : Cells) (v : Word) : c.setByte .f v = { c with f := v.setWidth 8 &&& 0xF0#8 } := by
  rw [← lowByte_eq_setWidth]
  rfl

theorem Cells.setByte_of_ne_f {r : Reg8} (h : r ≠ .f) (c : Cells) (v : Word) :
    c.setByte r v = c.write8 r (v.setWidth 8) := by
  rw [Cells.setByte, byteWriteMask_of_ne_f h, and_ff, lowByte_eq_setWidth]

@[simp] theorem lowByte_setWidth (x : Byte) : lowByte (x.setWidth 16) = x := by
  rw [lowByte_eq_setWidth, BitVec.setWidth_setWidth_of_le x (by decide), BitVec.setWidth_eq]

@[simp] theorem Cells.write8_read8 (c : Cells) (r : Reg8) : c.write8 r (c.read8 r) = c := by cases r <;> rfl

/-- The write mask loses nothing of a cell's value: that of F meets a zero low nibble (40_reg_access.md R92). -/
theorem Cells.read8_and_byteWriteMask {c : Cells} (h : c.Inv) (r : Reg8) : c.read8 r &&& byteWriteMask r = c.read8 r := by
  by_cases hf : r = .f
  · subst hf
    exact and_f0_of_lowNibble_zero c.f h
  · rw [byteWriteMask_of_ne_f hf, and_ff]

/-- A byte read and written back changes no cell. -/
theorem Cells.setByte_read8 {c : Cells} (h : c.Inv) (r : Reg8) : c.setByte r ((c.read8 r).setWidth 16) = c := by
  rw [Cells.setByte, lowByte_setWidth, Cells.read8_and_byteWriteMask h, Cells.write8_read8]

/-- Zero-extended, F still has bits 3 to 0 zero (10_state.md R20; 30_encoding.md R74). -/
theorem Cells.setWidth_f_and_000f {c : Cells} (h : c.Inv) : c.f.setWidth 16 &&& 0x000F#16 = 0#16 := by
  rw [show 0x000F#16 = (0x0F#8).setWidth 16 from rfl, ← BitVec.setWidth_and, h]
  rfl

/-! ## Command words by selector code (30_encoding.md R73) -/

/-- A selector code with zeros put in front fills SEL. -/
theorem zero_append_eq_setWidth {m n : Nat} (x : BitVec n) : 0#m ++ x = x.setWidth (m + n) := by
  apply BitVec.eq_of_toNat_eq
  rw [BitVec.toNat_setWidth, Nat.mod_eq_of_lt (BitVec.toNat_lt_twoPow_of_le (by omega))]
  simp

theorem decode_packWord_of_sel {i : Instr} {sel : BitVec 4} (h : sel = i.sel) :
    decode (packWord i.op sel i.data) = .ok i :=
  h ▸ decode_encode i

end Sys2Proof.Machine
end

section
/-! The statements on the access commands of single cells (40_reg_access.md), each settled from the lemmas above. -/

namespace Sys2Proof.Proofs

open Sys2Proof.Machine Sys2Proof.Claims

/-- Settles O12: the result is the cell read, and the cell read after a command is what the command's rule gives it. -/
theorem getR8ReturnsTheCell : Obligations.GetR8ReturnsTheCell := by
  have hlast : ∀ i r s t u, exec i s = .next t → exec (.getR8 r) t = .next u →
      u.result = some (.byte (byteAfter i s.cells r)) := by
    intro i r s t u h h'
    obtain rfl := exec_next.mp h
    obtain rfl := exec_next.mp h'
    exact congrArg (some ∘ Result.byte) (read8_cellsAfter i s.cells r)
  refine ⟨fun s => ?cells, fun r => ?word, fun r s t h => ?resp, fun s t hs h => ?nibble, hlast, rfl,
    fun s t u => hlast (.powerUp .gb) .e s t u⟩
  case cells =>
    exact ⟨exec_eq _ s, exec_eq _ s, exec_eq _ s, exec_eq _ s, exec_eq _ s, exec_eq _ s, exec_eq _ s, exec_eq _ s⟩
  case word => exact decode_packWord_of_sel (i := .getR8 r) (zero_append_eq_setWidth r.code)
  case resp =>
    obtain rfl := exec_next.mp h
    rfl
  case nibble =>
    obtain rfl := exec_next.mp h
    exact Cells.setWidth_f_and_000f hs

/-- Settles O13: the byte write in the spelling of the rules, and a byte written back to the cell it came from. -/
theorem setR8WritesTheLowByte : Obligations.SetR8WritesTheLowByte := by
  have hother : ∀ r v (s : State), r ≠ .f →
      exec (.setR8 r v) s = .next { s with cells := s.cells.write8 r (v.setWidth 8), result := none } := by
    intro r v s hr
    rw [exec_eq, cellsAfter, Cells.setByte_of_ne_f hr]
    rfl
  have hf : ∀ v (s : State), exec (.setR8 .f v) s =
      .next { s with cells := { s.cells with f := v.setWidth 8 &&& 0xF0#8 }, result := none } := by
    intro v s
    rw [exec_eq, cellsAfter, Cells.setByte_f]
    rfl
  refine ⟨fun v s => ?cells, fun r v => ?word, fun v s t h => ?flags, fun s t h => ?truncated, fun s t h => ?masked,
    rfl, fun s t u h h' => ?pair, fun x s t u hs h hx h' => ?back⟩
  case cells =>
    exact ⟨hother .a v s (by decide), hf v s, hother .b v s (by decide), hother .c v s (by decide),
      hother .d v s (by decide), hother .e v s (by decide), hother .h v s (by decide), hother .l v s (by decide)⟩
  case word => exact decode_packWord_of_sel (i := .setR8 r v) (zero_append_eq_setWidth r.code)
  case flags =>
    obtain rfl := exec_next.mp h
    exact ⟨flagTest_lowByte_and_f0 v .zf, flagTest_lowByte_and_f0 v .nf, flagTest_lowByte_and_f0 v .hf,
      flagTest_lowByte_and_f0 v .cf⟩
  case truncated =>
    obtain rfl := exec_next.mp h
    rfl
  case masked =>
    obtain rfl := exec_next.mp h
    rfl
  case pair =>
    obtain rfl := exec_next.mp h
    obtain rfl := exec_next.mp h'
    exact ⟨rfl, rfl⟩
  case back =>
    obtain rfl := exec_next.mp h
    obtain rfl := exec_next.mp h'
    obtain rfl : s.cells.f = x := Result.byte.inj (Option.some.inj hx)
    exact Cells.setByte_read8 hs .f

/-- Settles O14: the result is the cell read, and the cell read after a command is what the command's rule gives it. -/
theorem getR16ReturnsTheCell : Obligations.GetR16ReturnsTheCell := by
  have hlast : ∀ i r s t u, exec i s = .next t → exec (.getR16 r) t = .next u →
      u.result = some (.word (wordAfter i s.cells r)) := by
    intro i r s t u h h'
    obtain rfl := exec_next.mp h
    obtain rfl := exec_next.mp h'
    exact congrArg (some ∘ Result.word) (read16_cellsAfter i s.cells r)
  exact ⟨fun s => ⟨exec_eq _ s, exec_eq _ s⟩,
    fun r => decode_packWord_of_sel (i := .getR16 r) (zero_append_eq_setWidth r.code), hlast, rfl, rfl,
    fun s t u => hlast (.powerUp .gbc) .pc s t u, fun s t u => hlast (.powerUp .gbc) .sp s t u⟩

/-- Settles O15: the write takes the value whole and leaves the port. -/
theorem setR16WritesAllSixteenBits : Obligations.SetR16WritesAllSixteenBits := by
  refine ⟨fun v s => ⟨exec_eq _ s, exec_eq _ s⟩,
    fun r v => decode_packWord_of_sel (i := .setR16 r v) (zero_append_eq_setWidth r.code),
    fun v s e rest hport t h => ?_, rfl, rfl⟩
  obtain rfl := exec_next.mp h
  exact hport

end Sys2Proof.Proofs
end

section
/-! SUPPORT. Facts that the statements on the pair commands (41_pair_access.md) share: the pair write in the spelling of
R101 to R103, a pair read back after it, AF under the invariant of F, and a pair written with its own value. -/

namespace Sys2Proof.Machine

/-- The pair write as shift and mask of the whole value (41_pair_access.md R101). -/
theorem Cells.setPair_eq (c : Cells) (p : Pair) (v : Word) :
    c.setPair p v = (c.write8 (pairHi p) ((v >>> 8).setWidth 8)).write8 (pairLo p)
      ((v &&& (if p = .af then 0x00F0#16 else 0x00FF#16)).setWidth 8) := by
  rw [Cells.setPair, highByte_eq_setWidth, setWidth_and_pairMask]

/-- A pair read back after its write has lost what the mask of its low byte takes (41_pair_access.md R104). -/
theorem Cells.pair_setPair (c : Cells) (p : Pair) (v : Word) :
    (c.setPair p v).pair p = v &&& (if p = .af then 0xFFF0#16 else 0xFFFF#16) := by
  have hmask : (if p = .af then 0xFFF0#16 else 0xFFFF#16) = 0xFF#8 ++ pairLowMask p := by cases p <;> rfl
  calc (c.setPair p v).pair p
    _ = highByte v ++ (lowByte v &&& pairLowMask p) := by
      rw [Cells.pair, Cells.read8_setPair_hi, Cells.read8_setPair_lo]
    _ = (highByte v ++ lowByte v) &&& (0xFF#8 ++ pairLowMask p) := by rw [BitVec.and_append, and_ff]
    _ = v &&& (if p = .af then 0xFFF0#16 else 0xFFFF#16) := by rw [highByte_append_lowByte, hmask]

theorem Cells.pair_setPair_of_ne_af {p : Pair} (h : p ≠ .af) (c : Cells) (v : Word) : (c.setPair p v).pair p = v := by
  rw [Cells.pair_setPair, if_neg h]
  exact BitVec.and_allOnes

/-- A write of AF gives the invariant whatever F was before (41_pair_access.md R102). -/
theorem Cells.inv_setPair_af (c : Cells) (v : Word) : (c.setPair .af v).Inv := and_f0_and_0f (lowByte v)

/-- Bits 3 to 0 of AF are those of F (10_state.md R20). -/
theorem Cells.pair_af_and_000f {c : Cells} (h : c.Inv) : c.pair .af &&& 0x000F#16 = 0#16 := by
  have hmask : 0x000F#16 = 0x00#8 ++ 0x0F#8 := rfl
  have hlow : c.read8 (pairLo .af) &&& 0x0F#8 = 0#8 := h
  rw [Cells.pair, hmask, BitVec.and_append, hlow, BitVec.and_zero]
  rfl

/-- A pair read and written back changes no cell (41_pair_access.md R104). -/
theorem Cells.setPair_pair {c : Cells} (h : c.Inv) (p : Pair) : c.setPair p (c.pair p) = c := by
  rw [Cells.setPair, Cells.pair, highByte_append, lowByte_append, ← byteWriteMask_pairLo,
    Cells.read8_and_byteWriteMask h, Cells.write8_read8, Cells.write8_read8]

end Sys2Proof.Machine
end

section
/-! The statements on the pair commands (41_pair_access.md), each settled from the lemmas above. -/

namespace Sys2Proof.Proofs

open Sys2Proof.Machine Sys2Proof.Claims

/-- Settles O16: the result is the view of the pair, and the view after a command is made of what the command's rule
gives the two cells. -/
theorem getPairReturnsHighThenLow : Obligations.GetPairReturnsHighThenLow := by
  have hlast : ∀ i p s t u, exec i s = .next t → exec (.getPair p) t = .next u →
      u.result = some (.word (byteAfter i s.cells (pairHi p) ++ byteAfter i s.cells (pairLo p))) := by
    intro i p s t u h h'
    obtain rfl := exec_next.mp h
    obtain rfl := exec_next.mp h'
    rw [← read8_cellsAfter, ← read8_cellsAfter]
    rfl
  obtain ⟨haf, -, -, hhl⟩ := pair_powerUpRow (powerUpA .gb)
  obtain ⟨hview, -⟩ := viewsAreComputedFromTheCells
  obtain ⟨-, -, -, -, -, hflag⟩ := flagsAreWrittenOnlyByFourCommands
  refine ⟨fun s => ?cells, fun p => ?word, fun p s t h => ?resp, fun s t hs h => ?nibble, fun s t h => ?flags, hlast,
    rfl, rfl, fun s t u h h' => ?hl, fun s t u h h' => ?af⟩
  case cells => exact ⟨exec_eq _ s, exec_eq _ s, exec_eq _ s, exec_eq _ s⟩
  case word => exact decode_packWord_of_sel (i := .getPair p) (zero_append_eq_setWidth p.code)
  case resp =>
    obtain rfl := exec_next.mp h
    exact hview s.cells p
  case nibble =>
    obtain rfl := exec_next.mp h
    exact Cells.pair_af_and_000f hs
  case flags =>
    exact ⟨hflag .zf s t (.inl h), hflag .nf s t (.inl h), hflag .hf s t (.inl h), hflag .cf s t (.inl h)⟩
  case hl => exact (hlast _ _ s t u h h').trans (congrArg (some ∘ Result.word) hhl)
  case af => exact (hlast _ _ s t u h h').trans (congrArg (some ∘ Result.word) haf)

/-- Settles O17: the pair write in the spelling of the rules, and the corner values read back through the mask. -/
theorem setPairWritesBothCells : Obligations.SetPairWritesBothCells := by
  have hcells : ∀ p v (s : State), exec (.setPair p v) s = .next { s with
      cells := (s.cells.write8 (pairHi p) ((v >>> 8).setWidth 8)).write8 (pairLo p)
        ((v &&& (if p = .af then 0x00F0#16 else 0x00FF#16)).setWidth 8), result := none } := by
    intro p v s
    rw [exec_eq, cellsAfter, Cells.setPair_eq]
    rfl
  obtain ⟨-, -, hflag, -⟩ := flagsAreWrittenOnlyByFourCommands
  refine ⟨fun v s => ⟨hcells .af v s, hcells .bc v s, hcells .de v s, hcells .hl v s⟩, fun v => ?bytes, fun p v => ?word,
    fun v s t h => ?flags, fun p s t h => ?ones, fun p s t h => ?zeros, fun s t h => ?masked, fun v s t u h h' => ?nibble,
    rfl, rfl, fun s t h => ?de, fun s t h => ?af⟩
  case bytes =>
    exact ⟨(setWidth_and_pairMask .bc v).trans (and_ff _), setWidth_and_pairMask .af v, (highByte_eq_setWidth v).symm⟩
  case word => exact decode_packWord_of_sel (i := .setPair p v) (zero_append_eq_setWidth p.code)
  case flags =>
    exact ⟨hflag v .zf s t (.inl h), hflag v .nf s t (.inl h), hflag v .hf s t (.inl h), hflag v .cf s t (.inl h)⟩
  case ones =>
    obtain rfl := exec_next.mp h
    exact (s.cells.pair_setPair p _).trans BitVec.allOnes_and
  case zeros =>
    obtain rfl := exec_next.mp h
    exact (s.cells.pair_setPair p _).trans BitVec.zero_and
  case masked =>
    obtain rfl := exec_next.mp h
    exact ⟨rfl, rfl⟩
  case nibble =>
    obtain rfl := exec_next.mp h
    obtain rfl := exec_next.mp h'
    exact Cells.pair_af_and_000f (s.cells.inv_setPair_af v)
  case de =>
    obtain rfl := exec_next.mp h
    exact ⟨rfl, rfl⟩
  case af =>
    obtain rfl := exec_next.mp h
    exact ⟨rfl, rfl⟩

/-- Settles O32: a pair read after its own write, and AF written with its own value. -/
theorem pairsRoundTrip : Obligations.PairsRoundTrip := by
  refine ⟨fun p x s t u hp h h' => ?whole, fun x s t u h h' => ?af, fun x s t u hs h hx h' => ?back⟩
  case whole =>
    obtain rfl := exec_next.mp h
    obtain rfl := exec_next.mp h'
    exact congrArg (some ∘ Result.word) (Cells.pair_setPair_of_ne_af hp s.cells x)
  case af =>
    obtain rfl := exec_next.mp h
    obtain rfl := exec_next.mp h'
    exact congrArg (some ∘ Result.word) (s.cells.pair_setPair .af x)
  case back =>
    obtain rfl := exec_next.mp h
    obtain rfl := exec_next.mp h'
    obtain rfl : s.cells.pair .af = x := Result.word.inj (Option.some.inj hx)
    exact Cells.setPair_pair hs .af

end Sys2Proof.Proofs
end

section
/-! SUPPORT. Facts that the statements on the flag commands (42_flag_access.md) share: the flag write bit by bit, a flag
written with its own value, the bits of AF that `set_flag` keeps, and the other writers of F. -/

namespace Sys2Proof.Machine

open Sys2Proof.Claims

/-! ## The flag write (42_flag_access.md R111) -/

theorem getLsbD_flagWrite (x : Byte) (f : Flag) (b : Bool) (n : Nat) :
    (flagWrite x f b).getLsbD n = if n = 7 - flagNumber f then b else x.getLsbD n := by
  by_cases h : n = 7 - flagNumber f
  · rw [if_pos h, h, ← flagTest_eq_getLsbD, flagTest_flagWrite_same]
  · rw [if_neg h, getLsbD_flagWrite_of_ne h]

@[simp] theorem flagWrite_flagTest (x : Byte) (f : Flag) : flagWrite x f (flagTest x f) = x := by
  apply BitVec.eq_of_getLsbD_eq
  intro n _
  rw [getLsbD_flagWrite, flagTest_eq_getLsbD, ite_eq_right_iff]
  rintro rfl
  rfl

/-- Setting a flag that is set, or clearing one that is clear, changes no cell. -/
theorem Cells.setFlag_flag (c : Cells) (f : Flag) : c.setFlag f (c.flag f) = c := by
  rw [Cells.setFlag, Cells.flag, flagWrite_flagTest]
  exact c.write8_read8 .f

/-- `set_flag` keeps every bit of AF but the flag's own: A is not written, and F keeps its other bits. -/
theorem Cells.getLsbD_pair_af_setFlag_of_ne {f : Flag} {n : Nat} (h : n ≠ 7 - flagNumber f) (c : Cells) (b : Bool) :
    ((c.setFlag f b).pair .af).getLsbD n = (c.pair .af).getLsbD n := by
  have hhigh : (c.setFlag f b).read8 (pairHi .af) = c.read8 (pairHi .af) :=
    c.read8_setFlag_of_ne (pairHi_ne_f .af) f b
  have hlow : ((c.setFlag f b).read8 (pairLo .af)).getLsbD n = (c.read8 (pairLo .af)).getLsbD n :=
    getLsbD_flagWrite_of_ne h c.f b
  rw [Cells.pair, Cells.pair, BitVec.getLsbD_append, BitVec.getLsbD_append, hhigh, hlow]

/-! ## The other writers of F (42_flag_access.md R114) -/

/-- A command other than `set_flag` that writes F gives the invariant whatever the cells were: what it writes depends on
no cell, and from the power-up cells it keeps the invariant. -/
theorem Cells.inv_cellsAfter_of_writes8_f {i : Instr} (hflag : ∀ f b, i ≠ .setFlag f b) (h : writes8 i .f) (c : Cells) :
    (cellsAfter i c).Inv := by
  have hpow := Cells.inv_cellsAfter (Cells.inv_powerUpCells tableLegal_current .gb) i
  rwa [Cells.inv_iff_read8, read8_cellsAfter, byteAfter_congr_of_writes8 hflag h _ c, ← read8_cellsAfter] at hpow

end Sys2Proof.Machine
end

section
/-! The statements on the flag commands (42_flag_access.md), each settled from the lemmas above. -/

namespace Sys2Proof.Proofs

open Sys2Proof.Machine Sys2Proof.Claims

/-- Settles O18: the result is the flag's bit of F, and F after a command is what the command's rule gives it. -/
theorem getFlagReturnsItsBit : Obligations.GetFlagReturnsItsBit := by
  obtain ⟨-, -, -, hpow, hresult, -⟩ := flagsAreWrittenOnlyByFourCommands
  obtain ⟨-, -, -, -, -, hresp⟩ := responsePortShowsTheResult
  refine ⟨fun s => ?cells, fun f => ?word, fun f s t h => ?resp, fun f s s' t t' hbit h h' => ?oneBit,
    fun i f s t u h h' => ?last, rfl, rfl, rfl, rfl, fun f s t u h h' => ?powerUp⟩
  case cells => exact ⟨exec_eq _ s, exec_eq _ s, exec_eq _ s, exec_eq _ s⟩
  case word => exact decode_packWord_of_sel (i := .getFlag f) (zero_append_eq_setWidth f.code)
  case resp => rw [hresp f s t h, Cells.flag_eq_getLsbD]
  case oneBit =>
    rw [hresult f s t h, hresult f s' t' h', Cells.flag_eq_getLsbD, Cells.flag_eq_getLsbD, hbit]
  case last =>
    obtain ⟨hbyte, -⟩ := everyCellHoldsTheLastValueWritten i s t h
    have hf : t.cells.f = byteAfter i s.cells .f := hbyte .f
    rw [hresult f t u h', Cells.flag_eq_getLsbD, hf]
  case powerUp => rw [hresult f t u h', hpow .gb f s t h]

/-- Settles O19: the flag write with its literal masks and complements, bit by bit. -/
theorem setFlagWritesOneBitOfF : Obligations.SetFlagWritesOneBitOfF := by
  refine ⟨fun s => ?cells, fun f b => ?word, fun f => ?complement, fun f b s t hb h => ?unchanged,
    fun f b s t h => ?kept, rfl, rfl, fun s t u hf h h' => ?fromB0⟩
  case cells =>
    exact ⟨exec_eq _ s, exec_eq _ s, exec_eq _ s, exec_eq _ s, exec_eq _ s, exec_eq _ s, exec_eq _ s, exec_eq _ s⟩
  case word => exact decode_packWord_of_sel (i := .setFlag f b) (zero_append_eq_setWidth f.code)
  case complement => cases f <;> decide
  case unchanged =>
    obtain rfl := exec_next.mp h
    subst hb
    exact s.cells.setFlag_flag f
  case kept =>
    obtain rfl := exec_next.mp h
    exact ⟨lowNibble_flagWrite f b s.cells.f, fun n hn => Cells.getLsbD_pair_af_setFlag_of_ne hn s.cells b⟩
  case fromB0 =>
    obtain rfl := exec_next.mp h
    obtain rfl := exec_next.mp h'
    simp only [cellsAfter, Cells.f_setFlag, hf]
    decide

/-- Settles O29: every flag after `set_flag` is the value written or the value it had. -/
theorem flagsAreIndependent : Obligations.FlagsAreIndependent := by
  obtain ⟨-, hset, -, -, hget, -⟩ := flagsAreWrittenOnlyByFourCommands
  obtain ⟨-, -, hbits⟩ := writesAreIdempotent
  refine ⟨fun f g b s t u u' hne h hu hu' => ?other, fun f b s t u h hu => ?same,
    fun f b s t h => ⟨?frame, hbits f b s t h⟩⟩
  case other => rw [hget g t u' hu', hget g s u hu, hset f b g s t h, if_neg hne.symm]
  case same => rw [hget f t u hu, hset f b f s t h, if_pos rfl]
  case frame =>
    obtain rfl := exec_next.mp h
    rfl

/-- Settles O31: `set_flag` keeps the low nibble, and another command either leaves F alone or writes a masked value. -/
theorem setFlagKeepsTheLowNibbleOfF : Obligations.SetFlagKeepsTheLowNibbleOfF := by
  refine ⟨fun f b s t h => ?kept, fun f b s t => State.inv_exec, fun i s t h hflag => ?masked⟩
  case kept =>
    obtain rfl := exec_next.mp h
    exact lowNibble_flagWrite f b s.cells.f
  case masked =>
    obtain rfl := exec_next.mp h
    by_cases hw : writes8 i .f
    · exact .inr (and_f0_of_lowNibble_zero _ (Cells.inv_cellsAfter_of_writes8_f hflag hw s.cells)).symm
    · exact .inl ((read8_cellsAfter i s.cells .f).trans (byteAfter_of_not_writes8 hw s.cells))

end Sys2Proof.Proofs
end

section
/-! SUPPORT. Facts that the statements on the system commands (43_system.md) share: a sequence of commands that write
nothing, the cells after a `restore`, and the state after `power_up`. -/

namespace Sys2Proof.Machine

open Sys2Proof.Claims

/-! ## Sequences of commands that write nothing (43_system.md R122) -/

theorem execSeq_nil (s : State) : execSeq [] s = .next s := rfl

theorem resultsOf_cons (i : Instr) (is : List Instr) (s : State) :
    resultsOf (i :: is) s =
      resultOf i s.cells :: resultsOf is { s with cells := cellsAfter i s.cells, result := resultOf i s.cells } := by
  rw [resultsOf, exec_eq]

section readsOnly

variable {is : List Instr} (h : ∀ i ∈ is, readsOnly i)

include h in
/-- A sequence of commands that write nothing leaves the cells. -/
theorem cells_execSeq_of_readsOnly {s t : State} (ht : execSeq is s = .next t) : t.cells = s.cells := by
  induction is generalizing s with
  | nil =>
    cases ht
    rfl
  | cons i is ih =>
    obtain ⟨hi, his⟩ := List.forall_mem_cons.mp h
    rw [execSeq_cons, cellsAfter_of_readsOnly hi] at ht
    exact (ih his ht :)

include h in
/-- Each of them returns what it reads in the cells at the start. -/
theorem resultsOf_of_readsOnly (s : State) : resultsOf is s = is.map (resultOf · s.cells) := by
  induction is generalizing s with
  | nil => rfl
  | cons i is ih =>
    obtain ⟨hi, his⟩ := List.forall_mem_cons.mp h
    rw [resultsOf_cons, cellsAfter_of_readsOnly hi, ih his, List.map_cons]

end readsOnly

/-- `snapshot` is made of commands that write nothing: each of them returns a value. -/
theorem readsOnly_of_mem_snapshot {i : Instr} (h : i ∈ Pseudo.snapshot.expand) : readsOnly i := by
  have hvalue : ∀ j ∈ Pseudo.snapshot.expand, (returnWidth j).isSome = true := by decide
  exact readsOnly_iff.mpr (.inl (Option.isSome_iff_exists.mp (hvalue i h)))

/-! ## The cells after a `restore` (43_system.md R123) -/

/-- A `restore` leaves the low bytes of its first eight values, F through its mask, and the last two values whole. -/
theorem execSeq_restore (a f b c d e h l sp pc : Word) (y : State) :
    execSeq (Pseudo.restore a f b c d e h l sp pc).expand y = .next { y with
      cells := ⟨lowByte a, lowByte f &&& 0xF0#8, lowByte b, lowByte c, lowByte d, lowByte e, lowByte h, lowByte l,
        sp, pc⟩, result := none } := by
  simp [Pseudo.expand, execSeq_cons, execSeq_nil, cellsAfter, resultOf, Cells.setByte, byteWriteMask]

/-! ## The state after `power_up` (43_system.md R120) -/

theorem exec_powerUp (v : Variant) (s : State) :
    exec (.powerUp v) s = .next { s with cells := powerUpRow (powerUpA v), result := none } := by
  rw [exec_eq, cellsAfter, powerUpCells, powerUpTable_current]
  rfl

end Sys2Proof.Machine
end

section
/-! The statements on the system commands (43_system.md), each settled from the lemmas above. -/

namespace Sys2Proof.Proofs

open Sys2Proof.Machine Sys2Proof.Claims

/-- Settles O49: `snapshot` writes nothing, so each of its commands reads a cell of the start; `restore` writes all ten
cells, and the mask of F meets a zero low nibble. -/
theorem snapshotAndRestoreDuplicateAnInstance : Obligations.SnapshotAndRestoreDuplicateAnInstance := by
  have hresults : ∀ s, resultsOf Pseudo.snapshot.expand s = Pseudo.snapshot.expand.map (resultOf · s.cells) :=
    resultsOf_of_readsOnly fun _ => readsOnly_of_mem_snapshot
  refine ⟨fun s t => cells_execSeq_of_readsOnly fun _ => readsOnly_of_mem_snapshot, hresults, fun s hs => ?restore⟩
  case restore =>
    rw [hresults s]
    refine ⟨_, rfl, fun y => ⟨_, execSeq_restore .., ?_⟩⟩
    simp [Result.resp, Cells.read8, Cells.read16, and_f0_of_lowNibble_zero s.cells.f hs]

/-- Settles O11: `nop` leaves the cells, and an idle edge acts as `nop`. -/
theorem nopChangesNothing : Obligations.NopChangesNothing := by
  obtain ⟨hidle, -⟩ := idleEdgesChangeNoCell
  exact ⟨exec_eq .nop, fun w => decode_eq_ok_iff,
    fun s e hreset hvalid => (hidle _ e s.port rfl hreset hvalid).trans (exec_eq .nop s).symm, fun s => exec_eq .nop _⟩

/-- Settles O20: the state after `power_up` has the row of the table whatever it had before, and a reset edge performs
`power_up` of its strap. -/
theorem powerUpLoadsTheTable : Obligations.PowerUpLoadsTheTable := by
  obtain ⟨-, -, -, hflag, -⟩ := flagsAreWrittenOnlyByFourCommands
  refine ⟨fun s => ?cells, fun v => ?word, fun v s e hreset hv => ?reset, fun v s t h => ?flags,
    fun v s s' t t' h h' => ?forgets, fun s => ?sgb, rfl⟩
  case cells => exact ⟨exec_powerUp .gb s, exec_powerUp .gbp s, exec_powerUp .gbc s, exec_powerUp .sgb s⟩
  case word => exact decode_packWord_of_sel (i := .powerUp v) (zero_append_eq_setWidth v.code)
  case reset =>
    have hi : (takeEdge { s with port := e :: s.port }).1.instr = .ok (.powerUp v) := by
      simp [takeEdge, Edge.presented, hreset, hv, Presented.instr]
    exact step_of_instr_ok hi
  case flags => exact ⟨hflag v .zf s t h, hflag v .nf s t h, hflag v .hf s t h, hflag v .cf s t h⟩
  case forgets =>
    obtain rfl := exec_next.mp h
    obtain rfl := exec_next.mp h'
    rfl
  case sgb => exact (exec_powerUp .gb s).trans (exec_powerUp .sgb s).symm

end Sys2Proof.Proofs
end

section
/-! SUPPORT. Facts that the statements on exceptions (60_exceptions.md) share: which edges have a step, when a run goes on
for ever, and the step of a system. -/

namespace Sys2Proof.Machine

/-! ## What an edge asks for (60_exceptions.md R134, R136) -/

theorem Edge.instr_presented_of_command {e : Edge} (hreset : e.reset = false) (hvalid : e.cmdValid = true) :
    e.presented.instr = decode e.cmd := by
  simp [Edge.presented, hreset, hvalid, Presented.instr]

theorem Edge.instr_presented_of_reset {e : Edge} (hreset : e.reset = true) :
    e.presented.instr = .ok (.powerUp (variantOf e.variant)) := by
  simp [Edge.presented, hreset, Presented.instr]

theorem exists_decode_error_of_legalWord_eq_false {w : CmdWord} (h : legalWord w = false) :
    ∃ why, decode w = .error why := by
  cases hd : decode w with
  | ok i => exact absurd (legalWord_iff.mpr ⟨i, hd⟩) (by simp [h])
  | error why => exact ⟨why, rfl⟩

/-- An edge conforms exactly when it asks for a command: only a reserved word asks for none (60_exceptions.md R134). -/
theorem Edge.conforms_iff {e : Edge} : e.conforms = true ↔ ∃ i, e.presented.instr = .ok i := by
  rw [Edge.conforms]
  cases e.presented with
  | idle => simp [Presented.instr]
  | reset v => simp [Presented.instr]
  | command w => exact legalWord_iff

/-! ## Steps that go on -/

theorem exists_step_next_iff {s : State} : (∃ t, step s = .next t) ↔ ∃ i, (takeEdge s).1.instr = .ok i := by
  constructor
  · rintro ⟨t, h⟩
    obtain ⟨i, hi, -⟩ := exists_instr_of_step h
    exact ⟨i, hi⟩
  · rintro ⟨i, hi⟩
    exact ⟨_, (step_of_instr_ok hi).trans (exec_eq i _)⟩

/-- A step uses up one edge. -/
theorem port_step {s t : State} (h : step s = .next t) : t.port = s.port.tail := by
  obtain ⟨i, -, hi⟩ := exists_instr_of_step h
  obtain rfl := exec_next.mp hi
  rfl

theorem exists_step_next_of_port_nil {s : State} (hport : s.port = []) : ∃ t, step s = .next t := by
  rw [exists_step_next_iff, takeEdge_nil s hport]
  exact ⟨.nop, rfl⟩

theorem exists_step_next_iff_conforms {s : State} {e : Edge} {rest : List Edge} (hport : s.port = e :: rest) :
    (∃ t, step s = .next t) ↔ e.conforms = true := by
  rw [exists_step_next_iff, takeEdge_cons s e hport, Edge.conforms_iff]

/-! ## Runs that never stop (70_reset_and_hazards.md R158, R164) -/

theorem portConforms_cons {e : Edge} {es : List Edge} :
    portConforms (e :: es) = true ↔ e.conforms = true ∧ portConforms es = true := by
  simp [portConforms]

/-- From a conforming port there is a step, and it leaves a conforming port. -/
theorem exists_step_of_portConforms {s : State} (h : portConforms s.port = true) :
    ∃ t, step s = .next t ∧ portConforms t.port = true := by
  cases hport : s.port with
  | nil =>
    obtain ⟨t, ht⟩ := exists_step_next_of_port_nil hport
    exact ⟨t, ht, by rw [port_step ht, hport]; rfl⟩
  | cons e rest =>
    obtain ⟨he, hrest⟩ := portConforms_cons.mp (hport ▸ h)
    obtain ⟨t, ht⟩ := (exists_step_next_iff_conforms hport).mpr he
    exact ⟨t, ht, by rwa [port_step ht, hport]⟩

/-- A run that never stops has a first step and never stops after it. -/
theorem NeverStops.exists_step {s : State} (h : NeverStops s) : ∃ t, step s = .next t ∧ NeverStops t := by
  obtain ⟨_, h1⟩ := h 1
  obtain ⟨t, ht, -⟩ := run_succ_next h1
  exact ⟨t, ht, fun k => by simpa only [run_succ_of_step ht] using h (k + 1)⟩

theorem neverStops_of_portConforms {s : State} (h : portConforms s.port = true) : NeverStops s := by
  intro k
  induction k generalizing s with
  | zero => exact ⟨s, run_zero s⟩
  | succ k ih =>
    obtain ⟨t, ht, hport⟩ := exists_step_of_portConforms h
    rw [run_succ_of_step ht]
    exact ih hport

theorem portConforms_of_neverStops {s : State} (h : NeverStops s) : portConforms s.port = true := by
  induction hport : s.port generalizing s with
  | nil => rfl
  | cons e rest ih =>
    obtain ⟨t, ht, hrun⟩ := h.exists_step
    have hrest : t.port = rest := by rw [port_step ht, hport, List.tail_cons]
    exact portConforms_cons.mpr ⟨(exists_step_next_iff_conforms hport).mp ⟨t, ht⟩, ih hrun hrest⟩

/-! ## The step of a system (60_exceptions.md R142) -/

theorem System.step_of_next {n : Nat} {y : System n} {k : Fin n} {t : State} (h : Machine.step y.inst[k] = .next t) :
    y.step k = .next { inst := y.inst.set k t } := by
  simp only [System.step, h]

end Sys2Proof.Machine
end

section
/-! The statements on exceptions (60_exceptions.md), each settled from the lemmas above. -/

namespace Sys2Proof.Proofs

open Sys2Proof.Machine Sys2Proof.Claims

/-- Settles O21: a command has the one next state of `exec_eq`, a legal word decodes to a command, and the type of faults
is empty. -/
theorem everyCommandHasExactlyOneNextState : Obligations.EveryCommandHasExactlyOneNextState := by
  obtain ⟨hcommand, -⟩ := stepRunsTheDecodedCommand
  refine ⟨fun i s => ⟨_, exec_eq i s, fun u => exec_next.mp, resultWidth_resultOf i s.cells⟩,
    fun s e rest hport hreset hvalid hlegal => ?legal, fun _ _ r => (nomatch r), fun _ r => (nomatch r)⟩
  case legal =>
    obtain ⟨i, hi⟩ := legalWord_iff.mp hlegal
    exact ⟨_, (hcommand s e rest i hport hreset hvalid hi).trans (exec_eq i _), rfl⟩

/-- Settles O48: a conforming port has a step and still conforms after it, by induction on the number of steps; a run that
never stops passes every edge of its port, by induction on the port. -/
theorem onlyReservedWordsStopARun : Obligations.OnlyReservedWordsStopARun :=
  fun _ => ⟨portConforms_of_neverStops, neverStops_of_portConforms⟩

/-- Settles O50: a step of the system writes the next state of the machine it names at its place and nothing else. -/
theorem instancesShareNothing : Obligations.InstancesShareNothing := by
  have hown : ∀ (n : Nat) (y : System n) (k : Fin n) (t : State), step y.inst[k] = .next t →
      ∃ z, y.step k = .next z ∧ z.inst[k] = t :=
    fun n y k t h => ⟨_, System.step_of_next h, Vector.getElem_set_self k.isLt⟩
  refine ⟨fun n y z k j h hne => System.inst_step_of_ne y hne.symm h, hown, fun n y z k hk y' h => ?agree⟩
  case agree =>
    obtain ⟨t, ht, rfl⟩ := y.step_next h
    obtain ⟨z', hz', hinst⟩ := hown n z k t (hk ▸ ht)
    exact ⟨z', hz', hinst.trans (Vector.getElem_set_self k.isLt).symm⟩

/-- Settles O37: the decoder answers every word that is not legal with a reason, and the step is refused with it. -/
theorem reservedWordIsRefused : Obligations.ReservedWordIsRefused := by
  intro s e rest hport hreset hvalid hlegal
  obtain ⟨why, hwhy⟩ := exists_decode_error_of_legalWord_eq_false hlegal
  refine ⟨why, hwhy, step_of_instr_error ?_⟩
  rw [takeEdge_cons s e hport, Edge.instr_presented_of_command hreset hvalid, hwhy]

/-- Settles O38: a reset edge performs `power_up` of its strap, and the state this gives depends on neither the command
signals nor the state before. -/
theorem resetWinsAndPowersUp : Obligations.ResetWinsAndPowersUp := by
  have hexec : ∀ (s : State) (e : Edge) (rest : List Edge), s.port = e :: rest → e.reset = true →
      step s = exec (.powerUp (variantOf e.variant)) { s with port := rest } := by
    intro s e rest hport hreset
    have hi : (takeEdge s).1.instr = .ok (.powerUp (variantOf e.variant)) := by
      rw [takeEdge_cons s e hport, Edge.instr_presented_of_reset hreset]
    rw [step_of_instr_ok hi, hport, List.tail_cons]
  have hnext : ∀ (s : State) (e : Edge) (rest : List Edge), s.port = e :: rest → e.reset = true →
      step s = .next { cells := powerUpRow (powerUpA (variantOf e.variant)), result := none, port := rest } :=
    fun s e rest hport hreset => (hexec s e rest hport hreset).trans (exec_powerUp _ _)
  exact ⟨fun s e rest hport hreset => ⟨hexec s e rest hport hreset, hnext s e rest hport hreset⟩,
    fun s x w rest e hreset => (hnext _ e rest rfl hreset).trans
      (hnext _ { e with cmdValid := x, cmd := w } rest rfl hreset).symm,
    fun s t e rest hreset => (hnext _ e rest rfl hreset).trans (hnext _ e rest rfl hreset).symm⟩

end Sys2Proof.Proofs
end

section
/-! SUPPORT. Facts that the statements on power-up and hazards (70_reset_and_hazards.md) share: the bits of its value that a
write of AF takes, the response to a result, and runs whose first step is a power-up. -/

namespace Sys2Proof.Machine

/-! ## The value of AF (70_reset_and_hazards.md R161) -/

theorem extractLsb'_extractLsb' {w a b m n : Nat} {x : BitVec w} (h : b + n ≤ m) :
    (x.extractLsb' a m).extractLsb' b n = x.extractLsb' (a + b) n := by
  ext i hi
  have him : b + i < m := by omega
  simp [him, Nat.add_assoc]

/-- A write of AF takes bits 15 to 4 of its value alone (41_pair_access.md R102). -/
theorem Cells.setPair_af_congr {x y : Word} (h : x.extractLsb' 4 12 = y.extractLsb' 4 12) (c : Cells) :
    c.setPair .af x = c.setPair .af y := by
  have hbits : ∀ b n, b + n ≤ 12 → x.extractLsb' (4 + b) n = y.extractLsb' (4 + b) n := by
    intro b n hn
    rw [← extractLsb'_extractLsb' hn, h, extractLsb'_extractLsb' hn]
  have hhigh : highByte x = highByte y := hbits 4 8 (by decide)
  have hlow : lowByte x &&& pairLowMask .af = lowByte y &&& pairLowMask .af := by
    have hnibble : x.extractLsb' 4 4 = y.extractLsb' 4 4 := hbits 0 4 (by decide)
    rw [pairLowMask, lowByte_and_f0, lowByte_and_f0, hnibble]
  rw [Cells.setPair, Cells.setPair, hhigh, hlow]

theorem State.resp_of_result {s : State} {r : Result} (h : s.result = some r) : s.resp = r.resp := by
  rw [State.resp, h]

/-! ## Runs that power up first (70_reset_and_hazards.md R155, R156) -/

/-- `power_up` gives the invariant whatever the cells were before (43_system.md R120). -/
theorem State.inv_exec_powerUp {v : Variant} {s t : State} (h : exec (.powerUp v) s = .next t) : t.Inv := by
  obtain rfl := exec_next.mp h
  exact Cells.inv_powerUpCells tableLegal_current v

/-- A port starts with a power-up when its first edge performs one, or is idle and the rest starts with one. -/
theorem startsWithPowerUp_cons {e : Edge} {es : List Edge} (h : startsWithPowerUp (e :: es) = true) :
    (e.presented = .idle ∧ startsWithPowerUp es = true) ∨ ∃ v, e.presented.instr = .ok (.powerUp v) := by
  rw [startsWithPowerUp] at h
  cases hp : e.presented with
  | idle => exact .inl ⟨rfl, by rwa [hp] at h⟩
  | reset v => exact .inr ⟨v, rfl⟩
  | command w =>
    rw [hp] at h
    dsimp only at h
    split at h
    next v hd => exact .inr ⟨v, hd⟩
    next => cases h

/-- A run past the first edge of such a port that is not idle meets the invariant, from any cells. -/
theorem State.inv_run_of_startsWithPowerUp {k : Nat} {s t : State} (hport : startsWithPowerUp s.port = true)
    (hedge : ∃ e ∈ s.port.take k, e.presented ≠ .idle) (hrun : Host.Core.run Sys2Proof.core k s = .next t) : t.Inv := by
  induction k generalizing s with
  | zero => simp at hedge
  | succ k ih =>
    obtain ⟨u, hu, hut⟩ := run_succ_next hrun
    cases hs : s.port with
    | nil => simp [hs] at hedge
    | cons e es =>
      rw [hs] at hport hedge
      obtain ⟨hidle, hes⟩ | ⟨v, hv⟩ := startsWithPowerUp_cons hport
      · have hu_port : u.port = es := by rw [port_step hu, hs, List.tail_cons]
        have hrest : ∃ e ∈ es.take k, e.presented ≠ .idle := by simpa [hidle] using hedge
        exact ih (hu_port ▸ hes) (hu_port ▸ hrest) hut
      · have hinstr : (takeEdge s).1.instr = .ok (.powerUp v) := by rw [takeEdge_cons s e hs, hv]
        have hinv : u.Inv := State.inv_exec_powerUp ((step_of_instr_ok hinstr).symm.trans hu)
        exact run_induction (P := State.Inv) (fun _ _ => State.inv_step) k hinv hut

end Sys2Proof.Machine
end

section
/-! The statements on power-up and hazards (70_reset_and_hazards.md), each settled from the lemmas above. -/

namespace Sys2Proof.Proofs

open Sys2Proof.Machine

/-- Settles O34: the round trips of the pairs seen at RESP, the same for F by itself, and AF written from the twelve high
bits of its value. -/
theorem afDoesNotRoundTrip : Obligations.AfDoesNotRoundTrip := by
  obtain ⟨hwhole, haf, -⟩ := pairsRoundTrip
  refine ⟨fun x s t u h h' => State.resp_of_result (haf x s t u h h'), fun x s t u h h' => ?f,
    fun x y s t t' hxy h h' => ?high, fun p x s t u hp h h' => State.resp_of_result (hwhole p x s t u hp h h')⟩
  case f =>
    obtain rfl := exec_next.mp h
    obtain rfl := exec_next.mp h'
    exact congrArg (BitVec.setWidth 16) (s.cells.read8_setByte_same x .f)
  case high =>
    obtain rfl := exec_next.mp h
    obtain rfl := exec_next.mp h'
    rw [cellsAfter, cellsAfter, Cells.setPair_af_congr hxy]
    rfl

/-- Settles O45, by induction on the number of steps: idle edges go by, the first other edge powers up, and every step
after it keeps the invariant. -/
theorem poweringUpEstablishesTheInvariant : Obligations.PoweringUpEstablishesTheInvariant :=
  fun _ _ _ => State.inv_run_of_startsWithPowerUp

end Sys2Proof.Proofs
end

section
/-! The remaining statements: the listed words (95_test_vectors.md section 3) and the reset state (10_state.md section 5),
each settled from the lemmas above. -/

namespace Sys2Proof.Proofs

open Sys2Proof.Machine

/-- Settles O1: each of the ten accepted words is the encoding of its command, and the decoder computes the reason of each
of the six refused ones from its fields. -/
theorem writtenOutWordsDecodeAsListed : Obligations.WrittenOutWordsDecodeAsListed := by
  refine ⟨decode_encode .nop, decode_encode (.getR8 .e), decode_encode (.setR8 .a 0x1234#16), decode_encode (.getR16 .pc),
    decode_encode (.setR16 .sp 0xFFFC#16), decode_encode (.getPair .de), decode_encode (.setPair .hl 0xC000#16),
    decode_encode (.getFlag .nf), decode_encode (.setFlag .cf true), decode_encode (.powerUp .gbc), ?refused⟩
  case refused => decide

/-- Settles O41: the strapped variant is GB, and the configured table is legal, so that every power-up state meets the
invariant. -/
theorem resetStateMeetsTheInvariant : Obligations.ResetStateMeetsTheInvariant :=
  ⟨rfl, State.inv_powerUp Config.current.strap, State.inv_powerUp⟩

end Sys2Proof.Proofs
end
